-- ==== Sys2Proof/Word.lean ====
section
/-! DEFINITION. The word types of the block: bytes, 16-bit words, the opcode fields (00_scope.md R7, R8; 30_encoding.md R81). -/

namespace Sys2Proof

/-- A general register, a timer, a byte of memory or a frame-buffer cell (10_state.md R20, R26, R27, R31, R32). -/
abbrev Byte := BitVec 8

/-- I, PC, a stack slot or an opcode (10_state.md R22, R23, R25, R29). -/
abbrev Word := BitVec 16

/-- The fields `x` and `y`: an index into V0 to VF (30_encoding.md R81). Every value is an index (10_state.md R20). -/
abbrev RegIx := BitVec 4

/-- The field `nnn`: a 12-bit absolute address (30_encoding.md R81). -/
abbrev Addr12 := BitVec 12

/-- VF, the register that doubles as the flag output (10_state.md R21). -/
abbrev regF : RegIx := 0xF#4

/-- V0, the register Bnnn adds (40_control_flow.md R127). -/
abbrev reg0 : RegIx := 0x0#4

end Sys2Proof
end

