-- ==== Sys2Proof/Config.lean ====
section
/-! DEFINITION. The parameters of the hardware (00_scope.md R6) and the free values: what the host supplies to a cycle and
what the spec leaves open. A free value has no body, so no proof can see what it is. -/

namespace Sys2Proof.Config

/-- Bytes of main memory, addresses 0x000 to 0xFFF (R6, R50). -/
abbrev memSize : Nat := 0x1000

/-- Columns of the bitmap (R6, R62). -/
abbrev fbWidth : Nat := 64

/-- Rows of the bitmap (R6, R62). -/
abbrev fbHeight : Nat := 32

/-- Cells of the frame buffer, one byte a pixel (R6, R32). -/
abbrev fbSize : Nat := 2048

/-- Where the font table stands (R6, R60). -/
abbrev fontBase : Nat := 0x050

/-- Bytes of a glyph (R6, R60). -/
abbrev glyphBytes : Nat := 5

/-- Bytes of the font table: 16 glyphs of 5 bytes (R60; 90_conflicts.md C1). -/
abbrev fontSize : Nat := 80

/-- Where a program image is copied and the first instruction is fetched (R6, R23). -/
abbrev progOrigin : Nat := 0x200

/-- The longest program image (R6, R64). -/
abbrev progMax : Nat := 0xE00

/-- Glyphs 0 to 7 of the default font. PRESUMED (the spec's general-knowledge default), log 2. -/
def defaultGlyphsLow : List Byte :=
  [0xF0, 0x90, 0x90, 0x90, 0xF0] ++ [0x20, 0x60, 0x20, 0x20, 0x70] ++
  [0xF0, 0x10, 0xF0, 0x80, 0xF0] ++ [0xF0, 0x10, 0xF0, 0x10, 0xF0] ++
  [0x90, 0x90, 0xF0, 0x10, 0x10] ++ [0xF0, 0x80, 0xF0, 0x10, 0xF0] ++
  [0xF0, 0x80, 0xF0, 0x90, 0xF0] ++ [0xF0, 0x10, 0x20, 0x40, 0x40]

/-- Glyphs 8 to F of the default font. PRESUMED, log 2. -/
def defaultGlyphsHigh : List Byte :=
  [0xF0, 0x90, 0xF0, 0x90, 0xF0] ++ [0xF0, 0x90, 0xF0, 0x10, 0xF0] ++
  [0xF0, 0x90, 0xF0, 0x90, 0x90] ++ [0xE0, 0x90, 0xE0, 0x90, 0xE0] ++
  [0xF0, 0x80, 0x80, 0x80, 0xF0] ++ [0xE0, 0x90, 0x90, 0x90, 0xE0] ++
  [0xF0, 0x80, 0xF0, 0x80, 0xF0] ++ [0xF0, 0x80, 0xF0, 0x80, 0x80]

/-- The default of the parameter FONT_GLYPHS (20_memory.md R61, D24). PRESUMED: the spec marks the bytes as general
knowledge; unsafe for a claim that rests on a glyph's pixels, log 2. The parameter itself is `Env.glyphs`. -/
def defaultGlyphs : Vector Byte fontSize :=
  ⟨⟨defaultGlyphsLow ++ defaultGlyphsHigh⟩, by decide⟩

/-- FREE VALUE: the host's answer for each key (bit k = key k held) in the n-th cycle whose input is not listed in the
state (R5, R245). Safe, log 1. -/
opaque hostKeys : Nat → BitVec 16

/-- FREE VALUE: the random byte the host hands to the n-th cycle whose input is not listed in the state (R5, R153, D16).
Safe, log 1. -/
opaque hostRnd : Nat → Byte

/-- FREE VALUE: which of several held keys Fx0A takes in the n-th cycle (43_keypad.md R192, D14). Safe, log 3. -/
opaque keyDraw : Nat → Nat

end Sys2Proof.Config
end

