-- ==== Sys2Proof/Syntax.lean ====
section
/-! DEFINITION. The instructions: one constructor for each of the 34 rows of the opcode map (30_encoding.md R91). -/

namespace Sys2Proof

/-- The 34 instructions of the CHIP-8 (Pyxus table), in the order of 30_encoding.md R91. A constructor's arguments are the
opcode fields its pattern names (R81, R82); there is no other form (R80, R93, R94). -/
inductive Instr where
  /-- 00E0, CLS: clear the frame buffer (R170). -/
  | cls
  /-- 00EE, RET: return from subroutine (R120). -/
  | ret
  /-- 1nnn, JP nnn: jump (R121). -/
  | jp (nnn : Addr12)
  /-- 2nnn, CALL nnn: call subroutine (R122). -/
  | call (nnn : Addr12)
  /-- 3xkk, SE Vx, kk: skip if equal to immediate (R123). -/
  | seImm (x : RegIx) (kk : Byte)
  /-- 4xkk, SNE Vx, kk: skip if not equal to immediate (R124). -/
  | sneImm (x : RegIx) (kk : Byte)
  /-- 5xy0, SE Vx, Vy: skip if registers equal (R125). -/
  | seReg (x y : RegIx)
  /-- 6xkk, LD Vx, kk: load immediate (R142). -/
  | ldImm (x : RegIx) (kk : Byte)
  /-- 7xkk, ADD Vx, kk: add immediate, no flag (R143). -/
  | addImm (x : RegIx) (kk : Byte)
  /-- 8xy0, LD Vx, Vy: copy register (R144). -/
  | ldReg (x y : RegIx)
  /-- 8xy1, OR Vx, Vy: bitwise or (R145). -/
  | orReg (x y : RegIx)
  /-- 8xy2, AND Vx, Vy: bitwise and (R146). -/
  | andReg (x y : RegIx)
  /-- 8xy3, XOR Vx, Vy: bitwise exclusive or (R147). -/
  | xorReg (x y : RegIx)
  /-- 8xy4, ADD Vx, Vy: add with carry out (R148). -/
  | addReg (x y : RegIx)
  /-- 8xy5, SUB Vx, Vy: V[x] - V[y] (R149). -/
  | sub (x y : RegIx)
  /-- 8xy6, SHR Vx: shift right by one; `y` is written in the word and ignored (R87) (R150). -/
  | shr (x y : RegIx)
  /-- 8xy7, SUBN Vx, Vy: V[y] - V[x] (R151). -/
  | subn (x y : RegIx)
  /-- 8xyE, SHL Vx: shift left by one; `y` is written in the word and ignored (R87) (R152). -/
  | shl (x y : RegIx)
  /-- 9xy0, SNE Vx, Vy: skip if registers differ (R126). -/
  | sneReg (x y : RegIx)
  /-- Annn, LD I, nnn: set the address register (R210). -/
  | ldI (nnn : Addr12)
  /-- Bnnn, JP V0, nnn: jump with offset V0 (R127). -/
  | jpV0 (nnn : Addr12)
  /-- Cxkk, RND Vx, kk: random byte masked (R153). -/
  | rnd (x : RegIx) (kk : Byte)
  /-- Dxyn, DRW Vx, Vy, n: draw an n-row sprite; `n` is an unsigned count 0 to 15 (R82), see `Instr.wellFormed` (R171). -/
  | drw (x y : RegIx) (n : Nat)
  /-- Ex9E, SKP Vx: skip if key pressed (R190). -/
  | skp (x : RegIx)
  /-- ExA1, SKNP Vx: skip if key not pressed (R191). -/
  | sknp (x : RegIx)
  /-- Fx07, LD Vx, DT: read the delay timer (R200). -/
  | ldVxDt (x : RegIx)
  /-- Fx0A, LD Vx, K: wait for a key (R192). -/
  | ldVxK (x : RegIx)
  /-- Fx15, LD DT, Vx: set the delay timer (R201). -/
  | ldDtVx (x : RegIx)
  /-- Fx18, LD ST, Vx: set the sound timer (R202). -/
  | ldStVx (x : RegIx)
  /-- Fx1E, ADD I, Vx: add a register to I (R211). -/
  | addIVx (x : RegIx)
  /-- Fx29, LD F, Vx: address of a font glyph (R172). -/
  | ldFVx (x : RegIx)
  /-- Fx33, LD B, Vx: store three decimal digits (R212). -/
  | ldBVx (x : RegIx)
  /-- Fx55, LD [I], Vx: store registers V0 to Vx (R213). -/
  | ldMemVx (x : RegIx)
  /-- Fx65, LD Vx, [I]: load registers V0 to Vx (R214). -/
  | ldVxMem (x : RegIx)
  deriving DecidableEq, Repr

/-- The pattern of an instruction's row in the opcode map (30_encoding.md R91). -/
def Instr.pattern : Instr → String
  | .cls => "00E0"
  | .ret => "00EE"
  | .jp _ => "1nnn"
  | .call _ => "2nnn"
  | .seImm _ _ => "3xkk"
  | .sneImm _ _ => "4xkk"
  | .seReg _ _ => "5xy0"
  | .ldImm _ _ => "6xkk"
  | .addImm _ _ => "7xkk"
  | .ldReg _ _ => "8xy0"
  | .orReg _ _ => "8xy1"
  | .andReg _ _ => "8xy2"
  | .xorReg _ _ => "8xy3"
  | .addReg _ _ => "8xy4"
  | .sub _ _ => "8xy5"
  | .shr _ _ => "8xy6"
  | .subn _ _ => "8xy7"
  | .shl _ _ => "8xyE"
  | .sneReg _ _ => "9xy0"
  | .ldI _ => "Annn"
  | .jpV0 _ => "Bnnn"
  | .rnd _ _ => "Cxkk"
  | .drw _ _ _ => "Dxyn"
  | .skp _ => "Ex9E"
  | .sknp _ => "ExA1"
  | .ldVxDt _ => "Fx07"
  | .ldVxK _ => "Fx0A"
  | .ldDtVx _ => "Fx15"
  | .ldStVx _ => "Fx18"
  | .addIVx _ => "Fx1E"
  | .ldFVx _ => "Fx29"
  | .ldBVx _ => "Fx33"
  | .ldMemVx _ => "Fx55"
  | .ldVxMem _ => "Fx65"

/-- The last `k` hexadecimal digits of `n`, most significant first. -/
def hexText : Nat → Nat → String
  | 0, _ => ""
  | k + 1, n => hexText k (n / 16) ++ String.singleton (Nat.digitChar (n % 16)).toUpper

/-- V0 to VF by name, the index in hexadecimal (R95). -/
def regText (x : RegIx) : String := "V" ++ hexText 1 x.toNat

/-- The conventional assembler line of an instruction (30_encoding.md R95). A reading aid only: the word is normative, and
each line stands for exactly one pattern (R96). The ignored `y` of 8xy6 and 8xyE is always written. -/
def Instr.listing : Instr → String
  | .cls => "CLS"
  | .ret => "RET"
  | .jp nnn => "JP " ++ hexText 3 nnn.toNat
  | .call nnn => "CALL " ++ hexText 3 nnn.toNat
  | .seImm x kk => "SE " ++ regText x ++ ", " ++ "0x" ++ hexText 2 kk.toNat
  | .sneImm x kk => "SNE " ++ regText x ++ ", " ++ "0x" ++ hexText 2 kk.toNat
  | .seReg x y => "SE " ++ regText x ++ ", " ++ regText y
  | .ldImm x kk => "LD " ++ regText x ++ ", " ++ "0x" ++ hexText 2 kk.toNat
  | .addImm x kk => "ADD " ++ regText x ++ ", " ++ "0x" ++ hexText 2 kk.toNat
  | .ldReg x y => "LD " ++ regText x ++ ", " ++ regText y
  | .orReg x y => "OR " ++ regText x ++ ", " ++ regText y
  | .andReg x y => "AND " ++ regText x ++ ", " ++ regText y
  | .xorReg x y => "XOR " ++ regText x ++ ", " ++ regText y
  | .addReg x y => "ADD " ++ regText x ++ ", " ++ regText y
  | .sub x y => "SUB " ++ regText x ++ ", " ++ regText y
  | .shr x y => "SHR " ++ regText x ++ ", " ++ regText y
  | .subn x y => "SUBN " ++ regText x ++ ", " ++ regText y
  | .shl x y => "SHL " ++ regText x ++ ", " ++ regText y
  | .sneReg x y => "SNE " ++ regText x ++ ", " ++ regText y
  | .ldI nnn => "LD " ++ "I" ++ ", " ++ hexText 3 nnn.toNat
  | .jpV0 nnn => "JP " ++ "V0" ++ ", " ++ hexText 3 nnn.toNat
  | .rnd x kk => "RND " ++ regText x ++ ", " ++ "0x" ++ hexText 2 kk.toNat
  | .drw x y n => "DRW " ++ regText x ++ ", " ++ regText y ++ ", " ++ hexText 1 n
  | .skp x => "SKP " ++ regText x
  | .sknp x => "SKNP " ++ regText x
  | .ldVxDt x => "LD " ++ regText x ++ ", " ++ "DT"
  | .ldVxK x => "LD " ++ regText x ++ ", " ++ "K"
  | .ldDtVx x => "LD " ++ "DT" ++ ", " ++ regText x
  | .ldStVx x => "LD " ++ "ST" ++ ", " ++ regText x
  | .addIVx x => "ADD " ++ "I" ++ ", " ++ regText x
  | .ldFVx x => "LD " ++ "F" ++ ", " ++ regText x
  | .ldBVx x => "LD " ++ "B" ++ ", " ++ regText x
  | .ldMemVx x => "LD " ++ "[I]" ++ ", " ++ regText x
  | .ldVxMem x => "LD " ++ regText x ++ ", " ++ "[I]"

end Sys2Proof
end

