-- ==== Sys2Proof/WellFormed.lean ====
section
/-! DEFINITION. What makes an instruction term and a program image well formed. The register indices, immediates and
addresses of an instruction are bit fields of the width the opcode gives them (30_encoding.md R81), so they need no check;
the sprite height is a count and has one. -/

namespace Sys2Proof

/-- An instruction term that some opcode stands for: `n` of Dxyn is an unsigned count 0 to 15 (30_encoding.md R82,
42_display.md R171); every other argument is in range by its type. -/
def Instr.wellFormed : Instr → Bool
  | .drw _ _ n => decide (n < 16)
  | .cls | .ret | .jp _ | .call _ | .seImm _ _ | .sneImm _ _ | .seReg _ _ | .ldImm _ _ | .addImm _ _ | .ldReg _ _
  | .orReg _ _ | .andReg _ _ | .xorReg _ _ | .addReg _ _ | .sub _ _ | .shr _ _ | .subn _ _ | .shl _ _ | .sneReg _ _
  | .ldI _ | .jpV0 _ | .rnd _ _ | .skp _ | .sknp _ | .ldVxDt _ | .ldVxK _ | .ldDtVx _ | .ldStVx _ | .addIVx _
  | .ldFVx _ | .ldBVx _ | .ldMemVx _ | .ldVxMem _ => true

/-- A program image that `load` accepts: at most 0xE00 bytes; an odd length and the empty image are legal
(20_memory.md R64, D27). -/
def imageFits (image : List Byte) : Bool := decide (image.length ≤ Config.progMax)

end Sys2Proof
end

