-- ==== Sys2Proof/Decode.lean ====
section
/-! DEFINITION. The decoder (30_encoding.md R81, R84, R85, R86), total on any bytes and rejecting by name, then the encoder,
written from the opcode map (R91), and the opcode map itself as a table of masks and matches. -/

namespace Sys2Proof

/-! ## Fields (R81) -/

/-- Bits 15:12, the instruction family. -/
def fieldFamily (w : Word) : BitVec 4 := w.extractLsb' 12 4

/-- Bits 11:8. -/
def fieldX (w : Word) : RegIx := w.extractLsb' 8 4

/-- Bits 7:4. -/
def fieldY (w : Word) : RegIx := w.extractLsb' 4 4

/-- Bits 3:0. -/
def fieldN (w : Word) : BitVec 4 := w.extractLsb' 0 4

/-- Bits 7:0. -/
def fieldKk (w : Word) : Byte := w.extractLsb' 0 8

/-- Bits 11:0. -/
def fieldNnn (w : Word) : Addr12 := w.extractLsb' 0 12

/-- The big-endian composition of the fetch: `(high << 8) OR low`, the byte at the lower address first (R54, R83). -/
def composeWord (hi lo : Byte) : Word := hi ++ lo

/-- The byte stored at the lower address (R54). -/
def highByte (w : Word) : Byte := w.extractLsb' 8 8

/-- The byte stored at the higher address (R54). -/
def lowByte (w : Word) : Byte := w.extractLsb' 0 8

/-! ## Decode and dispatch (R84, R85) -/

/-- Family 0x0 matches the whole word (R85, D5). -/
def decodeFamily0 (w : Word) : Option Instr :=
  if w = 0x00E0#16 then some .cls
  else if w = 0x00EE#16 then some .ret
  else none

/-- Family 0x8 dispatches on bits 3:0 (R85). -/
def decodeFamily8 (w : Word) : Option Instr :=
  match (fieldN w).toNat with
  | 0x0 => some (.ldReg (fieldX w) (fieldY w))
  | 0x1 => some (.orReg (fieldX w) (fieldY w))
  | 0x2 => some (.andReg (fieldX w) (fieldY w))
  | 0x3 => some (.xorReg (fieldX w) (fieldY w))
  | 0x4 => some (.addReg (fieldX w) (fieldY w))
  | 0x5 => some (.sub (fieldX w) (fieldY w))
  | 0x6 => some (.shr (fieldX w) (fieldY w))
  | 0x7 => some (.subn (fieldX w) (fieldY w))
  | 0xE => some (.shl (fieldX w) (fieldY w))
  | _ => none

/-- Family 0xE dispatches on bits 7:0 (R85). -/
def decodeFamilyE (w : Word) : Option Instr :=
  match (fieldKk w).toNat with
  | 0x9E => some (.skp (fieldX w))
  | 0xA1 => some (.sknp (fieldX w))
  | _ => none

/-- Family 0xF dispatches on bits 7:0 (R85). -/
def decodeFamilyF (w : Word) : Option Instr :=
  match (fieldKk w).toNat with
  | 0x07 => some (.ldVxDt (fieldX w))
  | 0x0A => some (.ldVxK (fieldX w))
  | 0x15 => some (.ldDtVx (fieldX w))
  | 0x18 => some (.ldStVx (fieldX w))
  | 0x1E => some (.addIVx (fieldX w))
  | 0x29 => some (.ldFVx (fieldX w))
  | 0x33 => some (.ldBVx (fieldX w))
  | 0x55 => some (.ldMemVx (fieldX w))
  | 0x65 => some (.ldVxMem (fieldX w))
  | _ => none

/-- The instruction a 16-bit opcode stands for; none where no row of R91 matches (R84, R85, R86). -/
def decodeWord (w : Word) : Option Instr :=
  match (fieldFamily w).toNat with
  | 0x0 => decodeFamily0 w
  | 0x1 => some (.jp (fieldNnn w))
  | 0x2 => some (.call (fieldNnn w))
  | 0x3 => some (.seImm (fieldX w) (fieldKk w))
  | 0x4 => some (.sneImm (fieldX w) (fieldKk w))
  | 0x5 => if fieldN w = 0#4 then some (.seReg (fieldX w) (fieldY w)) else none
  | 0x6 => some (.ldImm (fieldX w) (fieldKk w))
  | 0x7 => some (.addImm (fieldX w) (fieldKk w))
  | 0x8 => decodeFamily8 w
  | 0x9 => if fieldN w = 0#4 then some (.sneReg (fieldX w) (fieldY w)) else none
  | 0xA => some (.ldI (fieldNnn w))
  | 0xB => some (.jpV0 (fieldNnn w))
  | 0xC => some (.rnd (fieldX w) (fieldKk w))
  | 0xD => some (.drw (fieldX w) (fieldY w) (fieldN w).toNat)
  | 0xE => decodeFamilyE w
  | 0xF => decodeFamilyF w
  | _ => none

/-- Why bytes are no instruction. -/
inductive DecodeError where
  /-- Fewer than two bytes: every instruction is 16 bits (R80). -/
  | truncated
  /-- The opcode matches no row of R91 (R86). -/
  | unrecognized (opcode : Word)
  deriving DecidableEq, Repr

/-- The decoder on bytes as they lie in memory, lowest address first: one instruction and the bytes after it, or the reason
there is none. -/
def decode : List Byte → Except DecodeError (Instr × List Byte)
  | hi :: lo :: rest =>
    match decodeWord (composeWord hi lo) with
    | some i => .ok (i, rest)
    | none => .error (.unrecognized (composeWord hi lo))
  | [_] => .error .truncated
  | [] => .error .truncated

/-! ## The encoder (R91) -/

/-- A word of the patterns that end in `nnn`. -/
def wordNnn (family : BitVec 4) (nnn : Addr12) : Word := family ++ nnn

/-- A word of the patterns that end in `kk`, immediate or selector. -/
def wordXkk (family : BitVec 4) (x : RegIx) (kk : Byte) : Word := (family ++ x) ++ kk

/-- A word of the patterns that end in `y` and `n`, count or selector. -/
def wordXyn (family : BitVec 4) (x y : RegIx) (n : BitVec 4) : Word := ((family ++ x) ++ y) ++ n

/-- The opcode of a well-formed instruction, from the patterns of R91. -/
def encode : Instr → Word
  | .cls => 0x00E0#16
  | .ret => 0x00EE#16
  | .jp nnn => wordNnn 0x1 nnn
  | .call nnn => wordNnn 0x2 nnn
  | .seImm x kk => wordXkk 0x3 x kk
  | .sneImm x kk => wordXkk 0x4 x kk
  | .seReg x y => wordXyn 0x5 x y 0x0
  | .ldImm x kk => wordXkk 0x6 x kk
  | .addImm x kk => wordXkk 0x7 x kk
  | .ldReg x y => wordXyn 0x8 x y 0x0
  | .orReg x y => wordXyn 0x8 x y 0x1
  | .andReg x y => wordXyn 0x8 x y 0x2
  | .xorReg x y => wordXyn 0x8 x y 0x3
  | .addReg x y => wordXyn 0x8 x y 0x4
  | .sub x y => wordXyn 0x8 x y 0x5
  | .shr x y => wordXyn 0x8 x y 0x6
  | .subn x y => wordXyn 0x8 x y 0x7
  | .shl x y => wordXyn 0x8 x y 0xE
  | .sneReg x y => wordXyn 0x9 x y 0x0
  | .ldI nnn => wordNnn 0xA nnn
  | .jpV0 nnn => wordNnn 0xB nnn
  | .rnd x kk => wordXkk 0xC x kk
  | .drw x y n => wordXyn 0xD x y (BitVec.ofNat 4 n)
  | .skp x => wordXkk 0xE x 0x9E
  | .sknp x => wordXkk 0xE x 0xA1
  | .ldVxDt x => wordXkk 0xF x 0x07
  | .ldVxK x => wordXkk 0xF x 0x0A
  | .ldDtVx x => wordXkk 0xF x 0x15
  | .ldStVx x => wordXkk 0xF x 0x18
  | .addIVx x => wordXkk 0xF x 0x1E
  | .ldFVx x => wordXkk 0xF x 0x29
  | .ldBVx x => wordXkk 0xF x 0x33
  | .ldMemVx x => wordXkk 0xF x 0x55
  | .ldVxMem x => wordXkk 0xF x 0x65

/-- The two bytes of an instruction as they lie in memory, lowest address first (R54). -/
def encodeBytes (i : Instr) : List Byte := [highByte (encode i), lowByte (encode i)]

/-! ## The opcode map as data (R91) -/

/-- One row of R91: an opcode w is this row exactly when `(w AND mask) = value`. -/
structure OpcodeRow where
  pattern : String
  mask : Word
  value : Word
  deriving DecidableEq, Repr

/-- Does the word match the row? -/
def OpcodeRow.covers (r : OpcodeRow) (w : Word) : Bool := (w &&& r.mask) == r.value

/-- Rows 1 to 12 of R91. -/
def opcodeRowsA : List OpcodeRow :=
  [⟨"00E0", 0xFFFF, 0x00E0⟩, ⟨"00EE", 0xFFFF, 0x00EE⟩, ⟨"1nnn", 0xF000, 0x1000⟩, ⟨"2nnn", 0xF000, 0x2000⟩,
   ⟨"3xkk", 0xF000, 0x3000⟩, ⟨"4xkk", 0xF000, 0x4000⟩, ⟨"5xy0", 0xF00F, 0x5000⟩, ⟨"6xkk", 0xF000, 0x6000⟩,
   ⟨"7xkk", 0xF000, 0x7000⟩, ⟨"8xy0", 0xF00F, 0x8000⟩, ⟨"8xy1", 0xF00F, 0x8001⟩, ⟨"8xy2", 0xF00F, 0x8002⟩]

/-- Rows 13 to 23 of R91. -/
def opcodeRowsB : List OpcodeRow :=
  [⟨"8xy3", 0xF00F, 0x8003⟩, ⟨"8xy4", 0xF00F, 0x8004⟩, ⟨"8xy5", 0xF00F, 0x8005⟩, ⟨"8xy6", 0xF00F, 0x8006⟩,
   ⟨"8xy7", 0xF00F, 0x8007⟩, ⟨"8xyE", 0xF00F, 0x800E⟩, ⟨"9xy0", 0xF00F, 0x9000⟩, ⟨"Annn", 0xF000, 0xA000⟩,
   ⟨"Bnnn", 0xF000, 0xB000⟩, ⟨"Cxkk", 0xF000, 0xC000⟩, ⟨"Dxyn", 0xF000, 0xD000⟩]

/-- Rows 24 to 34 of R91. -/
def opcodeRowsC : List OpcodeRow :=
  [⟨"Ex9E", 0xF0FF, 0xE09E⟩, ⟨"ExA1", 0xF0FF, 0xE0A1⟩, ⟨"Fx07", 0xF0FF, 0xF007⟩, ⟨"Fx0A", 0xF0FF, 0xF00A⟩,
   ⟨"Fx15", 0xF0FF, 0xF015⟩, ⟨"Fx18", 0xF0FF, 0xF018⟩, ⟨"Fx1E", 0xF0FF, 0xF01E⟩, ⟨"Fx29", 0xF0FF, 0xF029⟩,
   ⟨"Fx33", 0xF0FF, 0xF033⟩, ⟨"Fx55", 0xF0FF, 0xF055⟩, ⟨"Fx65", 0xF0FF, 0xF065⟩]

/-- The 34 rows of R91 in its order. -/
def opcodeRows : List OpcodeRow := opcodeRowsA ++ opcodeRowsB ++ opcodeRowsC

/-- A word that matches some row of R91; every other word raises DecodeFault (R86, R92, R93). -/
def legalWord (w : Word) : Bool := opcodeRows.any (fun r => r.covers w)

/-! ## The host's questions -/

/-- The instruction the decoder reads from an opcode-table word: `w` has bit 0 of the opcode lowest, its bits above `nbits`
are 0, and the opcode is laid out big-endian before it is decoded. An instruction is 16 bits (R80): a row of more has
none. Log 14. -/
def decodeTableWord (nbits w : Nat) : Option Instr :=
  if nbits ≤ 16 then
    let opcode : Word := BitVec.ofNat 16 (w % 2 ^ nbits)
    match decode [highByte opcode, lowByte opcode] with
    | .ok (i, _) => some i
    | .error _ => none
  else none

end Sys2Proof
end

