-- ==== Sys2Proof/Machine/State.lean ====
section
/-! DEFINITION. The state of the block, plain data: everything 10_state.md names, the reasons a step stops, and reset. -/

namespace Sys2Proof.Machine

/-- A fault: the fatal stop of 60_exceptions.md R230, and its whole record (R232): the cause with its info, the opcode of
the faulting instruction and the address it was fetched from. A fault carries all that is defined after it (R233), so it
carries no state; ending a run here is safe (log 4). -/
inductive Fault where
  /-- Code 1, LoadFault(ImageTooLarge, L): raised by `load` for an image of more than 0xE00 bytes (20_memory.md R64); no
  opcode and no address. Safe. -/
  | loadFault (length : Nat)
  /-- Code 2: raised by decode for an opcode of no row of R91 (30_encoding.md R86). Safe. -/
  | decodeFault (opcode addr : Word)
  /-- Code 3: raised by 2nnn with SP = 16 (40_control_flow.md R122). Safe. -/
  | stackOverflow (opcode addr : Word)
  /-- Code 4: raised by 00EE with SP = 0 (40_control_flow.md R120). Safe. -/
  | stackUnderflow (opcode addr : Word)
  /-- Code 5: raised by a main-memory access at `bad`, 4096 or more (20_memory.md R52): the fetch (then no opcode), Dxyn,
  Fx33, Fx55, Fx65. Safe. -/
  | memoryRange (bad : Nat) (opcode : Option Word) (addr : Word)
  /-- Code 6: raised by Ex9E and ExA1 with V[x] = `key` above 0x0F (43_keypad.md R190, R191). Safe. -/
  | keyIndex (key : Byte) (opcode addr : Word)
  deriving DecidableEq, Repr

/-- The reasons the model has no meaning for an instruction. -/
inductive Refusal where
  /-- Said by exec's arm of an instruction that has no meaning yet; there is none in this model. Safe. -/
  | notModelled (mnemonic : String)
  deriving DecidableEq, Repr

/-- The run state with its fault record (10_state.md R30). -/
inductive RunState where
  | running
  | faulted (record : Fault)
  deriving DecidableEq, Repr, Inhabited

/-- Main memory or frame buffer: the cells that differ from their reset contents, addresses strictly rising
(`Memory.wf`). Log 6. -/
abbrev Memory := List Host.Cell

/-- The arguments of one call `cycle(keys, rnd)` (00_scope.md R5): bit k of `keys` is the host's answer for key k. -/
structure CycleInput where
  keys : BitVec 16
  rnd : Byte
  deriving DecidableEq, Repr, Inhabited

/-- The MODEL's own fields: what stands outside the block and its steps read. Not state of the block (10_state.md R34); no
instruction writes it. -/
structure Env where
  /-- The parameter FONT_GLYPHS (20_memory.md R61, D24), log 2. -/
  glyphs : Vector Byte Config.fontSize
  /-- The arguments of the coming cycles, the next one first; past the end they are free values, log 1. -/
  inputs : List CycleInput
  /-- Which of the free values the next cycle draws, log 1. -/
  cycles : Nat
  deriving DecidableEq, Repr, Inhabited

/-- All state of the block (10_state.md), and the model's `env`. -/
structure State where
  /-- V0 to VF (R20, R21). -/
  v : Vector Byte 16
  /-- The address register I (R22). -/
  i : Word
  /-- The program counter (R23): during execute it is the fetch address plus 2. -/
  pc : Word
  /-- The stack pointer: how many return addresses are held, 0 to 16 (R24, 90_conflicts.md C2). -/
  sp : Fin 17
  /-- The call stack, slot 0 first (R25). -/
  stack : Vector Word 16
  /-- The delay timer (R26). -/
  dt : Byte
  /-- The sound timer (R27). -/
  st : Byte
  /-- The keypad snapshot, bit k for key k (R28). -/
  keys : BitVec 16
  /-- The current instruction (R29). -/
  ir : Word
  /-- The run state and fault record (R30). -/
  run : RunState
  /-- Main memory (R31, 20_memory.md R50). -/
  mem : Memory
  /-- The frame buffer (R32, R33, 20_memory.md R62). -/
  fb : Memory
  /-- The model's own fields. -/
  env : Env
  deriving DecidableEq, Repr, Inhabited

/-- What a step, a cycle or an instruction ends in. -/
abbrev Outcome := Host.Outcome State Fault Refusal

/-- The model's own fields at reset: the default font (PRESUMED, log 2), and every coming input free (DESIGN CHOICE,
log 1). -/
def Env.initial : Env := { glyphs := Config.defaultGlyphs, inputs := [], cycles := 0 }

/-- The block right after `reset()` (70_reset_and_hazards.md R260), for any FONT_GLYPHS and any host. Nothing is listed in
either memory: an unlisted address of main memory reads as reset leaves it, the font bytes at 0x050 to 0x09F and 0x00
elsewhere (`resetByte`), and an unlisted cell as 0x00. -/
def State.resetWith (env : Env) : State where
  v := Vector.replicate 16 0x00#8
  i := 0x0000#16
  pc := 0x0200#16
  sp := 0
  stack := Vector.replicate 16 0x0000#16
  dt := 0x00#8
  st := 0x00#8
  keys := 0x0000#16
  ir := 0x0000#16
  run := .running
  mem := []
  fb := []
  env := env

/-- The machine right after reset, with the spec's default font. -/
def State.reset : State := State.resetWith Env.initial

end Sys2Proof.Machine
end

