-- ==== Sys2Proof/Machine/Ops.lean ====
section
/-! DEFINITION. The named operations over memory and registers: the range-checked accesses of 20_memory.md, the registers and
call stack of 10_state.md, raising a fault (60_exceptions.md R230), the fetch (30_encoding.md R83), and the poll and tick
that end a cycle (60_exceptions.md R245, R241). -/

namespace Sys2Proof.Machine

/-! ## An address space as a list (R50, R63) -/

/-- What main memory reads at `a` right after reset: glyph bytes in the font table, zero elsewhere (R58, R60, R260). -/
def resetByte (glyphs : Vector Byte Config.fontSize) (a : Nat) : Byte :=
  if h : Config.fontBase ≤ a ∧ a < Config.fontBase + Config.fontSize then glyphs[a - Config.fontBase]'(by omega)
  else 0x00#8

/-- What every frame-buffer cell reads right after reset (R32). -/
def resetCell (_ : Nat) : Byte := 0x00#8

/-- Read one byte; `d` is what an unlisted address reads as. -/
def Memory.read (d : Nat → Byte) : Memory → Nat → Byte
  | [], a => d a
  | (k, b) :: rest, a => if k = a then b else Memory.read d rest a

/-- Write one byte, keeping the canonical form: the value an unlisted address reads as is not listed. -/
def Memory.write (d : Nat → Byte) : Memory → Nat → Byte → Memory
  | [], a, x => if x = d a then [] else [(a, x)]
  | (k, b) :: rest, a, x =>
    if a < k then (if x = d a then (k, b) :: rest else (a, x) :: (k, b) :: rest)
    else if a = k then (if x = d a then rest else (a, x) :: rest)
    else (k, b) :: Memory.write d rest a x

/-- Write consecutive bytes from `a` on (the `load(bytes, origin)` of R63, without its range check). -/
def Memory.writeList (d : Nat → Byte) : Memory → Nat → List Byte → Memory
  | m, _, [] => m
  | m, a, x :: xs => Memory.writeList d (Memory.write d m a x) (a + 1) xs

/-- The canonical form: addresses strictly rising and below `size`, no entry equal to what an unlisted address reads as. -/
def Memory.wf (d : Nat → Byte) (size : Nat) : Memory → Bool
  | [] => true
  | (k, b) :: rest =>
    decide (k < size) && (b != d k) && rest.all (fun c => decide (k < c.1)) && Memory.wf d size rest

/-! ## Main memory (R52) and the frame buffer (R53) -/

/-- The byte main memory holds at `a`. -/
def State.memByte (s : State) (a : Nat) : Byte := s.mem.read (resetByte s.env.glyphs) a

/-- The frame-buffer cell `c`: `FbRead(c)`. -/
def State.cell (s : State) (c : Nat) : Byte := s.fb.read resetCell c

/-- `MemRead(a, 1)` (R52): the byte, or the address that is out of range. -/
def State.memRead (s : State) (a : Nat) : Except Nat Byte :=
  if a < Config.memSize then .ok (s.memByte a) else .error a

/-- Main memory replaced. -/
def State.setMem (s : State) (m : Memory) : State := { s with mem := m }

/-- `MemWrite(a, 1, v)` (R52). -/
def State.memWrite (s : State) (a : Nat) (x : Byte) : Except Nat State :=
  if a < Config.memSize then .ok (s.setMem (s.mem.write (resetByte s.env.glyphs) a x)) else .error a

/-- Read `n` consecutive bytes, lowest address first; the first address out of range where there is one (R234). -/
def State.readBytes (s : State) : Nat → Nat → Except Nat (List Byte)
  | _, 0 => .ok []
  | a, n + 1 =>
    match s.memRead a with
    | .error bad => .error bad
    | .ok b =>
      match s.readBytes (a + 1) n with
      | .error bad => .error bad
      | .ok bs => .ok (b :: bs)

/-- Write consecutive bytes, lowest address first; the first address out of range where there is one (R234). -/
def State.writeBytes : State → Nat → List Byte → Except Nat State
  | s, _, [] => .ok s
  | s, a, x :: xs =>
    match s.memWrite a x with
    | .error bad => .error bad
    | .ok t => State.writeBytes t (a + 1) xs

/-! ## Registers -/

/-- `V[x]` (R9, R20). -/
def State.getV (s : State) (x : RegIx) : Byte := s.v[x.toNat]'x.isLt

/-- `V[x] <- b` (R9, R20). -/
def State.setV (s : State) (x : RegIx) (b : Byte) : State := { s with v := s.v.set x.toNat b x.isLt }

/-- `V[k] <- b` for consecutive registers from `k` on, the loop of Fx65 (R214). -/
def State.setVs : State → Nat → List Byte → State
  | s, _, [] => s
  | s, k, b :: bs => State.setVs { s with v := s.v.setIfInBounds k b } (k + 1) bs

/-- `I <- a` (R22). -/
def State.setI (s : State) (a : Word) : State := { s with i := a }

/-- `PC <- a` (R23): any value, checked only at the next fetch (R128). -/
def State.setPc (s : State) (a : Word) : State := { s with pc := a }

/-- Skip: `PC <- (PC + 2) mod 2^16` (R90). -/
def State.skip (s : State) : State := s.setPc (s.pc + 2#16)

/-- The rewind of Fx0A: `PC <- (PC - 2) mod 2^16` (R192). -/
def State.rewind (s : State) : State := s.setPc (s.pc - 2#16)

/-- `DT <- b` (R26). -/
def State.setDt (s : State) (b : Byte) : State := { s with dt := b }

/-- `ST <- b` (R27). -/
def State.setSt (s : State) (b : Byte) : State := { s with st := b }

/-- The frame buffer replaced (00E0, Dxyn). -/
def State.setFb (s : State) (m : Memory) : State := { s with fb := m }

/-- `stack[SP] <- a; SP <- SP + 1`; none with SP = 16 (R25, R122). -/
def State.push (s : State) (a : Word) : Option State :=
  if h : s.sp.val < 16 then
    some { s with stack := s.stack.set s.sp.val a h, sp := ⟨s.sp.val + 1, by omega⟩ }
  else none

/-- `SP <- SP - 1` and the slot now at SP; none with SP = 0. The slot keeps its value (R25, R120, D8). -/
def State.pop (s : State) : Option (State × Word) :=
  if h : 0 < s.sp.val then
    some ({ s with sp := ⟨s.sp.val - 1, by omega⟩ }, s.stack[s.sp.val - 1]'(by omega))
  else none

/-! ## Raising a fault (R230, R232) -/

/-- The address the running instruction was fetched from: during decode and execute PC is that address plus 2
(30_encoding.md R83, R89). DEDUCED, log 7. -/
def State.fetchAddr (s : State) : Word := s.pc - 2#16

/-- `raise F(info)` once an opcode is fetched: the cycle stops, and the record takes the opcode from IR and the fetch
address (R230, R232). There is no handler, no saved register and no mode to change (R236). -/
def raise (s : State) (cause : Word → Word → Fault) : Outcome := .fault (cause s.ir s.fetchAddr)

/-- `raise MemoryRange(bad)` in the execute step (R52, R231). -/
def raiseRange (s : State) (bad : Nat) : Outcome := raise s (fun opcode addr => .memoryRange bad (some opcode) addr)

/-! ## Fetch (30_encoding.md R83) -/

/-- The fetch: two reads at PC and PC + 1, the second address not truncated, IR the big-endian word, PC advanced by 2; or
the address that is out of range. -/
def State.fetch (s : State) : Except Nat State :=
  match s.memRead s.pc.toNat with
  | .error bad => .error bad
  | .ok hi =>
    match s.memRead (s.pc.toNat + 1) with
    | .error bad => .error bad
    | .ok lo => .ok { s with ir := composeWord hi lo, pc := s.pc + 2#16 }

/-! ## The inputs of a cycle, the poll and the tick -/

/-- The arguments of the cycle in progress: the next ones the state lists, else free values (R5; log 1). -/
def Env.input (e : Env) : CycleInput :=
  match e.inputs with
  | now :: _ => now
  | [] => { keys := Config.hostKeys e.cycles, rnd := Config.hostRnd e.cycles }

/-- The arguments of a completed cycle are used up. -/
def Env.advance (e : Env) : Env := { e with inputs := e.inputs.tail, cycles := e.cycles + 1 }

/-- A timer above zero is decremented by 1, a timer at zero stays (R241). -/
def tickTimer (b : Byte) : Byte := if b = 0#8 then 0#8 else b - 1#8

/-- The keypad poll, then the timer tick (30_encoding.md R88 steps 4 and 5; 60_exceptions.md R245, R241). -/
def State.endCycle (s : State) : State :=
  { s with keys := s.env.input.keys, dt := tickTimer s.dt, st := tickTimer s.st, env := s.env.advance }

end Sys2Proof.Machine
end

