-- ==== Sys2Proof/Machine/Operands.lean ====
section
/-! DEFINITION. The operand forms of the instructions (30_encoding.md R82): addresses, the register block of Fx55, decimal
digits, glyph addresses, keys, and the cells a sprite names. -/

namespace Sys2Proof.Machine

/-- `zext_16(nnn)` (R82). -/
def zextAddr (nnn : Addr12) : Word := nnn.setWidth 16

/-- `zext_16(b)` of a byte (R8). -/
def zextByte (b : Byte) : Word := b.setWidth 16

/-- The values of V0 to V[x], V0 first: the operands of Fx55 (45_index_memory.md R213). -/
def State.regBlock (s : State) (x : RegIx) : List Byte := s.v.toList.take (x.toNat + 1)

/-- The digits Fx33 stores, hundreds first (45_index_memory.md R212). -/
def decimalDigits (b : Byte) : List Byte :=
  [BitVec.ofNat 8 (b.toNat / 100), BitVec.ofNat 8 (b.toNat / 10 % 10), BitVec.ofNat 8 (b.toNat % 10)]

/-- The address of glyph `b`: the whole byte is used, not its low nibble (42_display.md R172, D12). -/
def glyphAddr (b : Byte) : Word := BitVec.ofNat 16 (Config.fontBase + Config.glyphBytes * b.toNat)

/-! ## Keys (43_keypad.md) -/

/-- `Key(k)`: is bit k of the snapshot set? (R9, R28) -/
def State.keyDown (s : State) (k : Nat) : Bool := s.keys.getLsbD k

/-- The keys set in a snapshot, in rising order: the set P of R192. -/
def heldKeys (keys : BitVec 16) : List Nat := (List.range 16).filter (fun k => keys.getLsbD k)

/-- One of a non-empty list by a draw: member 0 for draw 0, and so on, the last one for every larger draw. -/
def pick (first : Nat) : List Nat → Nat → Nat
  | [], _ => first
  | next :: rest, draw =>
    match draw with
    | 0 => first
    | d + 1 => pick next rest d
termination_by structural held => held

/-- `choose(P)` (R192): a free choice among the held keys, none when no key is held. Log 3. -/
def chooseKey (keys : BitVec 16) (draw : Nat) : Option Nat :=
  match heldKeys keys with
  | [] => none
  | first :: rest => some (pick first rest draw)

/-! ## Sprites (42_display.md R171) -/

/-- The cell of a pixel, wrapped at both edges (20_memory.md R62, R171). -/
def spriteCell (px py row col : Nat) : Nat :=
  ((py + row) % Config.fbHeight) * Config.fbWidth + (px + col) % Config.fbWidth

/-- Is column `col` of a sprite row on? The most-significant bit is column 0. -/
def spriteBit (b : Byte) (col : Nat) : Bool := b.getLsbD (7 - col)

/-- The cells of the set bits of one sprite row, left to right. -/
def rowCells (px py row : Nat) (b : Byte) : List Nat :=
  ((List.range 8).filter (fun col => spriteBit b col)).map (fun col => spriteCell px py row col)

/-- The cells of the set bits of a sprite whose rows start at `row`, in the order Dxyn draws them. -/
def spriteCells (px py : Nat) : Nat → List Byte → List Nat
  | _, [] => []
  | row, b :: bs => rowCells px py row b ++ spriteCells px py (row + 1) bs

end Sys2Proof.Machine
end

