-- ==== Sys2Proof/Machine/Flags.lean ====
section
/-! DEFINITION. The values VF takes (10_state.md R21, 41_alu.md R140) and the order of the two writes (R141). There is no
other flag. -/

namespace Sys2Proof.Machine

/-- VF is 1 for a true condition, 0 for a false one. -/
def flagByte (c : Bool) : Byte := if c then 1#8 else 0#8

/-- The carry of 8xy4: the exact sum exceeds 255 (R140, R148). -/
def carryOut (a b : Byte) : Bool := decide (a.toNat + b.toNat > 255)

/-- The flag of 8xy5 and 8xy7: the minuend is STRICTLY greater, so 0 on equal operands (R140, R149, R151). -/
def strictlyGreater (minuend subtrahend : Byte) : Bool := decide (minuend.toNat > subtrahend.toNat)

/-- The bit 8xy6 shifts out (R150). -/
def shiftedOutRight (a : Byte) : Bool := a.getLsbD 0

/-- The bit 8xyE shifts out (R152). -/
def shiftedOutLeft (a : Byte) : Bool := a.getLsbD 7

/-- VF first, V[x] second: with x = F the result stays (R141). -/
def State.setFlagAndV (s : State) (flag : Bool) (x : RegIx) (result : Byte) : State :=
  (s.setV regF (flagByte flag)).setV x result

/-- One set sprite bit: the cell is XORed with 0xFF, and an on pixel turned off is a collision (42_display.md R171). -/
def xorPixel (acc : Memory × Bool) (c : Nat) : Memory × Bool :=
  let old := acc.1.read resetCell c
  (acc.1.write resetCell c (old ^^^ 0xFF#8), acc.2 || old == 0xFF#8)

/-- All set bits of a sprite, in order: the frame buffer after them, and whether any pixel collided (R171). -/
def drawCells (fb : Memory) (cells : List Nat) : Memory × Bool := cells.foldl xorPixel (fb, false)

end Sys2Proof.Machine
end

