-- ==== Sys2Proof/Machine/Alu.lean ====
section
/-! DEFINITION. Register arithmetic and logic (41_alu.md). Operands are read before any register is written (R141). -/

namespace Sys2Proof.Machine

/-- 6xkk (R142). -/
def execLdImm (x : RegIx) (kk : Byte) (s : State) : Outcome := .next (s.setV x kk)

/-- 7xkk: modulo 256, no flag (R143). -/
def execAddImm (x : RegIx) (kk : Byte) (s : State) : Outcome := .next (s.setV x (s.getV x + kk))

/-- 8xy0 (R144). -/
def execLdReg (x y : RegIx) (s : State) : Outcome := .next (s.setV x (s.getV y))

/-- 8xy1: no flag (R145, D4). -/
def execOrReg (x y : RegIx) (s : State) : Outcome := .next (s.setV x (s.getV x ||| s.getV y))

/-- 8xy2: no flag (R146, D4). -/
def execAndReg (x y : RegIx) (s : State) : Outcome := .next (s.setV x (s.getV x &&& s.getV y))

/-- 8xy3: no flag (R147, D4). -/
def execXorReg (x y : RegIx) (s : State) : Outcome := .next (s.setV x (s.getV x ^^^ s.getV y))

/-- 8xy4 (R148). -/
def execAddReg (x y : RegIx) (s : State) : Outcome :=
  .next (s.setFlagAndV (carryOut (s.getV x) (s.getV y)) x (s.getV x + s.getV y))

/-- 8xy5 (R149). -/
def execSub (x y : RegIx) (s : State) : Outcome :=
  .next (s.setFlagAndV (strictlyGreater (s.getV x) (s.getV y)) x (s.getV x - s.getV y))

/-- 8xy6: V[y] is not read (R150, R87). -/
def execShr (x : RegIx) (s : State) : Outcome := .next (s.setFlagAndV (shiftedOutRight (s.getV x)) x (s.getV x >>> 1))

/-- 8xy7 (R151). -/
def execSubn (x y : RegIx) (s : State) : Outcome :=
  .next (s.setFlagAndV (strictlyGreater (s.getV y) (s.getV x)) x (s.getV y - s.getV x))

/-- 8xyE: V[y] is not read (R152, R87). -/
def execShl (x : RegIx) (s : State) : Outcome := .next (s.setFlagAndV (shiftedOutLeft (s.getV x)) x (s.getV x <<< 1))

/-- Cxkk: the cycle's random byte, masked (R153). -/
def execRnd (x : RegIx) (kk : Byte) (s : State) : Outcome := .next (s.setV x (s.env.input.rnd &&& kk))

end Sys2Proof.Machine
end

