-- ==== Sys2Proof/Machine/ControlFlow.lean ====
section
/-! DEFINITION. Jumps, calls, returns and skips (40_control_flow.md). During execute PC holds the fetch address plus 2. -/

namespace Sys2Proof.Machine

/-- The skip of a condition (30_encoding.md R90). -/
def skipIf (c : Bool) (s : State) : Outcome := .next (if c then s.skip else s)

/-- 00EE (R120). -/
def execRet (s : State) : Outcome :=
  match s.pop with
  | none => raise s .stackUnderflow
  | some (t, a) => .next (t.setPc a)

/-- 1nnn (R121). -/
def execJp (nnn : Addr12) (s : State) : Outcome := .next (s.setPc (zextAddr nnn))

/-- 2nnn: the return address pushed is PC, the instruction after the call (R122). -/
def execCall (nnn : Addr12) (s : State) : Outcome :=
  match s.push s.pc with
  | none => raise s .stackOverflow
  | some t => .next (t.setPc (zextAddr nnn))

/-- 3xkk (R123). -/
def execSeImm (x : RegIx) (kk : Byte) (s : State) : Outcome := skipIf (s.getV x == kk) s

/-- 4xkk (R124). -/
def execSneImm (x : RegIx) (kk : Byte) (s : State) : Outcome := skipIf (s.getV x != kk) s

/-- 5xy0 (R125). -/
def execSeReg (x y : RegIx) (s : State) : Outcome := skipIf (s.getV x == s.getV y) s

/-- 9xy0 (R126). -/
def execSneReg (x y : RegIx) (s : State) : Outcome := skipIf (s.getV x != s.getV y) s

/-- Bnnn: always V0, the sum not reduced to 12 bits (R127, D10). -/
def execJpV0 (nnn : Addr12) (s : State) : Outcome := .next (s.setPc (zextByte (s.getV reg0) + zextAddr nnn))

end Sys2Proof.Machine
end

