-- ==== Sys2Proof/Machine/Display.lean ====
section
/-! DEFINITION. The frame buffer and the font (42_display.md). -/

namespace Sys2Proof.Machine

/-- 00E0: every cell 0x00 (R170). -/
def execCls (s : State) : Outcome := .next (s.setFb [])

/-- Dxyn: the coordinates are read before VF is reset; n rows are read at I, I + 1, ... and drawn with XOR; VF is the
collision flag (R171, D26). All rows are read before a cell changes: the two orders differ only in what a fault leaves,
which is unspecified (R233; log 8). -/
def execDrw (x y : RegIx) (n : Nat) (s : State) : Outcome :=
  match s.readBytes s.i.toNat n with
  | .error bad => raiseRange s bad
  | .ok rows =>
    let px := (s.getV x).toNat % Config.fbWidth
    let py := (s.getV y).toNat % Config.fbHeight
    let drawn := drawCells s.fb (spriteCells px py 0 rows)
    .next ((s.setFb drawn.1).setV regF (flagByte drawn.2))

/-- Fx29 (R172). -/
def execLdFVx (x : RegIx) (s : State) : Outcome := .next (s.setI (glyphAddr (s.getV x)))

end Sys2Proof.Machine
end

