-- ==== Sys2Proof/Machine/IndexMemory.lean ====
section
/-! DEFINITION. The address register and the transfers between registers and main memory (45_index_memory.md). None of them
changes I as a side effect (D4). -/

namespace Sys2Proof.Machine

/-- Store consecutive bytes from I on, or raise MemoryRange for the first address out of range (R52, R234). -/
def storeAtI (bytes : List Byte) (s : State) : Outcome :=
  match s.writeBytes s.i.toNat bytes with
  | .error bad => raiseRange s bad
  | .ok t => .next t

/-- Annn (R210). -/
def execLdI (nnn : Addr12) (s : State) : Outcome := .next (s.setI (zextAddr nnn))

/-- Fx1E: modulo 2^16, no flag, no range check (R211, D11). -/
def execAddIVx (x : RegIx) (s : State) : Outcome := .next (s.setI (s.i + zextByte (s.getV x)))

/-- Fx33 (R212). -/
def execLdBVx (x : RegIx) (s : State) : Outcome := storeAtI (decimalDigits (s.getV x)) s

/-- Fx55 (R213). -/
def execLdMemVx (x : RegIx) (s : State) : Outcome := storeAtI (s.regBlock x) s

/-- Fx65 (R214). -/
def execLdVxMem (x : RegIx) (s : State) : Outcome :=
  match s.readBytes s.i.toNat (x.toNat + 1) with
  | .error bad => raiseRange s bad
  | .ok bytes => .next (s.setVs 0 bytes)

end Sys2Proof.Machine
end

