-- ==== Sys2Proof/Machine/Keypad.lean ====
section
/-! DEFINITION. The instructions that read the keypad snapshot (43_keypad.md), never the live input of the cycle (R28). -/

namespace Sys2Proof.Machine

/-- Ex9E and ExA1 on key V[x]: KeyIndex above 0x0F, else a skip when the key's bit is `want` (R190, R191). -/
def skipIfKey (want : Bool) (x : RegIx) (s : State) : Outcome :=
  if (s.getV x).toNat > 0x0F then raise s (.keyIndex (s.getV x))
  else skipIf (s.keyDown (s.getV x).toNat == want) s

/-- Ex9E (R190). -/
def execSkp (x : RegIx) (s : State) : Outcome := skipIfKey true x s

/-- ExA1 (R191). -/
def execSknp (x : RegIx) (s : State) : Outcome := skipIfKey false x s

/-- Fx0A: with no key held PC is set back, so the next cycle runs it again; else V[x] takes a held key (R192). -/
def execLdVxK (x : RegIx) (s : State) : Outcome :=
  match chooseKey s.keys (Config.keyDraw s.env.cycles) with
  | none => .next s.rewind
  | some k => .next (s.setV x (BitVec.ofNat 8 k))

end Sys2Proof.Machine
end

