-- ==== Sys2Proof/Machine/Timers.lean ====
section
/-! DEFINITION. The instructions that read or write the timers (44_timers.md). The tick of the same cycle follows them. -/

namespace Sys2Proof.Machine

/-- Fx07 (R200). -/
def execLdVxDt (x : RegIx) (s : State) : Outcome := .next (s.setV x s.dt)

/-- Fx15 (R201). -/
def execLdDtVx (x : RegIx) (s : State) : Outcome := .next (s.setDt (s.getV x))

/-- Fx18 (R202). -/
def execLdStVx (x : RegIx) (s : State) : Outcome := .next (s.setSt (s.getV x))

end Sys2Proof.Machine
end

