-- ==== Sys2Proof/Machine/Step.lean ====
section
/-! DEFINITION. The cycle (30_encoding.md R88): one step of the machine. -/

namespace Sys2Proof.Machine

/-- Steps 2 to 5 of a cycle on a state the fetch left: decode, execute, and if no fault stops it the poll and the tick. -/
def runFetched (s : State) : Host.Outcome State Fault Refusal :=
  match decodeWord s.ir with
  | none => raise s .decodeFault
  | some i =>
    match exec i s with
    | .next t => .next t.endCycle
    | .fault r => .fault r
    | .refused r => .refused r

/-- One call of `cycle` with the inputs the state holds or, past their end, free ones (R88). A machine that is Faulted has
no step: it answers its fixed record again (60_exceptions.md R233; log 11). A fetch fault records no opcode, and the value
of PC at the start of the cycle (R83, R232). -/
def step (s : State) : Host.Outcome State Fault Refusal :=
  match s.run with
  | .faulted r => .fault r
  | .running =>
    match s.fetch with
    | .error bad => .fault (.memoryRange bad none s.pc)
    | .ok t => runFetched t

/-- The state with an instruction word of the opcode table stored, big-endian, at PC, where `step` fetches next (R54, R83);
the bits of `w` above `nbits` are 0. Nothing else changes. Log 10, log 14. -/
def State.withFetchWord (s : State) (nbits w : Nat) : State :=
  let opcode : Word := BitVec.ofNat 16 (w % 2 ^ nbits)
  s.setMem (s.mem.writeList (resetByte s.env.glyphs) s.pc.toNat [highByte opcode, lowByte opcode])

end Sys2Proof.Machine
end

