-- ==== Sys2Proof/Machine/HostPort.lean ====
section
/-! DEFINITION. The interface of the block (00_scope.md R5): `reset()`, `load(image)`, `cycle(keys, rnd)` and the outputs
the host reads between cycles. `Sys2Proof.Machine.step` is `cycle` with inputs the model supplies. -/

namespace Sys2Proof.Machine

/-! ## The fault record (60_exceptions.md R231, R232) -/

/-- The cause code (R231, D18). -/
def Fault.code : Fault → Nat
  | .loadFault _ => 1
  | .decodeFault _ _ => 2
  | .stackOverflow _ _ => 3
  | .stackUnderflow _ _ => 4
  | .memoryRange _ _ _ => 5
  | .keyIndex _ _ _ => 6

/-- The opcode of the record: none for a fetch fault and a load fault (R30, R232). -/
def Fault.opcode : Fault → Option Word
  | .loadFault _ => none
  | .decodeFault o _ | .stackOverflow o _ | .stackUnderflow o _ | .keyIndex _ o _ => some o
  | .memoryRange _ o _ => o

/-- The fetch address of the record: none for a load fault (R30, R232). -/
def Fault.addr : Fault → Option Word
  | .loadFault _ => none
  | .decodeFault _ a | .stackOverflow _ a | .stackUnderflow _ a | .keyIndex _ _ a | .memoryRange _ _ a => some a

/-! ## Operations -/

/-- `reset()` (70_reset_and_hazards.md R260). What stands outside the block is not reset (log 13). -/
def State.doReset (s : State) : State := State.resetWith s.env

/-- `load(image)`: the image verbatim from 0x200, the size checked before any byte is written (20_memory.md R63, R64, R66).
An image too large leaves the run state Faulted(LoadFault); a machine that is Faulted keeps its record (60_exceptions.md R233; log
12). DESIGN CHOICE: after a LoadFault everything else is kept, where R233 leaves all but the run state and the record
unspecified and R64 says only that nothing is written; unsafe, log 20. -/
def State.load (s : State) (image : List Byte) : State :=
  if imageFits image then
    s.setMem (s.mem.writeList (resetByte s.env.glyphs) Config.progOrigin image)
  else
    match s.run with
    | .running => { s with run := .faulted (.loadFault image.length) }
    | .faulted _ => s

/-- A restart: `reset()` followed by `load(image)` (R261). -/
def State.restart (s : State) (image : List Byte) : State := s.doReset.load image

/-- The host's arguments of the next cycle, put before those the state lists. -/
def State.withInput (s : State) (keys : BitVec 16) (rnd : Byte) : State :=
  { s with env := { s.env with inputs := { keys := keys, rnd := rnd } :: s.env.inputs } }

/-- `cycle(keys, rnd)` (R5, R88). -/
def cycle (keys : BitVec 16) (rnd : Byte) (s : State) : Outcome := step (s.withInput keys rnd)

/-- FREE VALUE: everything a fault leaves but the run state and the record: any state at all (60_exceptions.md R233,
93_implementation_defined.md U8 U9, D17). It is a constant of the configuration, declared here because its type is State.
Safe, log 4. -/
opaque Config.stateAfterFault : Nat → State

/-- The machine after a fault: the run state and the record are defined, what stands outside the block is as it was, and
every other piece of state is unspecified (R233; log 4). -/
def State.afterFault (s : State) (r : Fault) : State :=
  { Config.stateAfterFault s.env.cycles with run := .faulted r, env := s.env }

/-- The machine as the host finds it after calling `cycle(keys, rnd)`: the next state; after a fault the faulted one; on a
machine that is Faulted nothing changes (R88, R230, R233). -/
def State.afterCycle (s : State) (keys : BitVec 16) (rnd : Byte) : State :=
  match s.run with
  | .faulted _ => s
  | .running =>
    match cycle keys rnd s with
    | .next t => t
    | .fault r => s.afterFault r
    | .refused _ => s

/-! ## Outputs, readable between cycles -/

/-- The `fault` output: the record, none while the machine runs (R5, R30, R232). -/
def State.faultOutput (s : State) : Option Fault :=
  match s.run with
  | .running => none
  | .faulted r => some r

/-- The tone output: ST is not zero (60_exceptions.md R244). -/
def State.tone (s : State) : Bool := s.st != 0#8

/-- The frame-buffer read port: all 2048 cells, cell 0 first (60_exceptions.md R247). -/
def State.frameBufferPort (s : State) : List Byte := (List.range Config.fbSize).map s.cell

/-- The dump of the diagnostics port (60_exceptions.md R248). -/
structure Dump where
  ir : Word
  pc : Word
  i : Word
  dt : Byte
  st : Byte
  v : Vector Byte 16
  sp : Nat
  stack : Vector Word 16
  memory : List Byte
  frameBuffer : List Byte
  keys : BitVec 16
  run : RunState
  deriving DecidableEq, Repr

/-- The diagnostics port: produced on demand, reading it changes nothing (R248). -/
def State.diagnostics (s : State) : Dump where
  ir := s.ir
  pc := s.pc
  i := s.i
  dt := s.dt
  st := s.st
  v := s.v
  sp := s.sp.val
  stack := s.stack
  memory := (List.range Config.memSize).map s.memByte
  frameBuffer := s.frameBufferPort
  keys := s.keys
  run := s.run

end Sys2Proof.Machine
end

