-- ==== Sys2Proof/Safety.lean ====
section
/-! DEFINITION. What the claims call a good state and a safe run. -/

namespace Sys2Proof.Machine

/-- Main memory is in canonical form within its 4096 bytes (20_memory.md R50; log 6). -/
def State.memOk (s : State) : Prop := Memory.wf (resetByte s.env.glyphs) Config.memSize s.mem = true

/-- The frame buffer is in canonical form within its 2048 cells, and every listed cell is an on pixel, 0xFF
(10_state.md R32, R33; log 6). -/
def State.fbOk (s : State) : Prop :=
  Memory.wf resetCell Config.fbSize s.fb = true ∧ s.fb.all (fun c => c.2 == 0xFF#8) = true

/-- Every address on the call stack was pushed by some 2nnn after a fetch, so it is at most 0x1000
(40_control_flow.md R120, R122; 30_encoding.md R83). -/
def State.stackOk (s : State) : Prop := ∀ j : Fin 16, s.stack[j].toNat ≤ 0x1000

/-- PC between cycles is at most 0x10FE, the largest target of Bnnn (40_control_flow.md R127, R128). -/
def State.pcOk (s : State) : Prop := s.pc.toNat ≤ 0x10FE

/-- The invariant of the block: what every state between two cycles satisfies. -/
def State.Inv (s : State) : Prop := s.memOk ∧ s.fbOk ∧ s.stackOk ∧ s.pcOk

/-- `n` cycles end without a fault: what a claim about a run assumes (60_exceptions.md R252). -/
def SafeRun (n : Nat) (s t : State) : Prop := Sys2Proof.core.run n s = .next t

end Sys2Proof.Machine
end

