-- ==== Sys2Proof/Certificates/Slice0/Obligations.lean ====
section
/-! DEFINITION. The statements for the provers, from the numbered rules of spec/. Each docstring names the rule it
formalises; a statement that rests on a choice of the model names its log entry, and one that rests on a passage the spec
marks as its own names it: D<n>, a decision of 92_eei_decisions.md (log 15), or a passage marked derived. Statements about
a state hold for every value of the model's own fields (font parameter, inputs, draws). -/

open Sys2Proof Sys2Proof.Machine

/-! ## What the statements are said with -/

namespace Sys2Proof.Claims

/-- What an instruction may write. Registers by number; main memory as the bytes `memFrom` to `memFrom + memCount - 1`. -/
structure MayWrite where
  regs : List RegIx := []
  i : Bool := false
  pc : Bool := false
  sp : Bool := false
  stack : Bool := false
  dt : Bool := false
  st : Bool := false
  fb : Bool := false
  memFrom : Nat := 0
  memCount : Nat := 0

/-- The frame of an instruction from `s` to `t`: every piece of state but those of `w` is unchanged. The keypad snapshot,
IR, the run state and the model's own fields are never an instruction's to write (10_state.md R28, R29, R30; that `env` is
kept is the model's, log 1). -/
def Frame (w : MayWrite) (s t : State) : Prop :=
  (∀ j, j ∉ w.regs → t.getV j = s.getV j) ∧
  (w.i = false → t.i = s.i) ∧
  (w.pc = false → t.pc = s.pc) ∧
  (w.sp = false → t.sp = s.sp) ∧
  (w.stack = false → t.stack = s.stack) ∧
  (w.dt = false → t.dt = s.dt) ∧
  (w.st = false → t.st = s.st) ∧
  (w.fb = false → ∀ c, t.cell c = s.cell c) ∧
  (∀ a, (a < w.memFrom ∨ w.memFrom + w.memCount ≤ a) → t.memByte a = s.memByte a) ∧
  t.keys = s.keys ∧ t.ir = s.ir ∧ t.run = s.run ∧ t.env = s.env

/-- `k` is the lowest offset below `n` whose address is 4096 or more (60_exceptions.md R234). -/
def FirstOutOfRange (base n k : Nat) : Prop := k < n ∧ 4096 ≤ base + k ∧ ∀ j < k, base + j < 4096

/-- The instruction completes; it skips exactly when `c` holds, and changes nothing but PC (30_encoding.md R90). -/
def SkipsWhen (c : Prop) (i : Instr) (s : State) : Prop :=
  ∃ t, exec i s = .next t ∧ (c → t.pc = s.pc + 2#16) ∧ (¬ c → t.pc = s.pc) ∧ Frame { pc := true } s t

/-- The instruction raises MemoryRange at `bad`, with the opcode and fetch address of the cycle in the record
(60_exceptions.md R231, R232, D31; that this address is PC - 2 is DEDUCED, log 7). -/
def RaisesRange (bad : Nat) (i : Instr) (s : State) : Prop :=
  exec i s = .fault (.memoryRange bad (some s.ir) (s.pc - 2#16))

/-- The cell `c` is under a set bit of the n-row sprite at I, drawn at (V[x] mod 64, V[y] mod 32) (42_display.md R171). -/
def UnderSprite (x y : RegIx) (n : Nat) (s : State) (c : Nat) : Prop :=
  ∃ row < n, ∃ col < 8, (s.memByte (s.i.toNat + row)).getLsbD (7 - col) = true ∧
    c = (((s.getV y).toNat % 32 + row) % 32) * 64 + ((s.getV x).toNat % 64 + col) % 64

/-- The registers an instruction writes: the "written by" column of the table of 10_state.md R20. -/
def writtenRegs : Instr → List RegIx
  | .ldImm x _ | .addImm x _ | .ldReg x _ | .orReg x _ | .andReg x _ | .xorReg x _ | .rnd x _ | .ldVxDt x
  | .ldVxK x => [x]
  | .addReg x _ | .sub x _ | .shr x _ | .subn x _ | .shl x _ => [x, regF]
  | .drw _ _ _ => [regF]
  | .ldVxMem x => (List.range (x.toNat + 1)).map (BitVec.ofNat 4)
  | .cls | .ret | .jp _ | .call _ | .seImm _ _ | .sneImm _ _ | .seReg _ _ | .sneReg _ _ | .ldI _ | .jpV0 _ | .skp _
  | .sknp _ | .ldDtVx _ | .ldStVx _ | .addIVx _ | .ldFVx _ | .ldBVx _ | .ldMemVx _ => []

/-- The outcome with the state of its next state changed. -/
def mapNext (g : State → State) : Outcome → Outcome
  | .next t => .next (g t)
  | .fault r => .fault r
  | .refused r => .refused r

/-- The state with other inputs for the coming cycles. -/
def withInputs (s : State) (inputs : List CycleInput) : State := { s with env := { s.env with inputs := inputs } }

end Sys2Proof.Claims

open Sys2Proof.Claims

/-! ## Encoding -/

/-- A few words written out from the patterns of 30_encoding.md R91 decode to the instructions they stand for. -/
def Obligations.WordsOfTheTableDecode : Prop :=
  decodeWord 0x00E0#16 = some .cls ∧ decodeWord 0x2208#16 = some (.call 0x208#12) ∧
  decodeWord 0x7220#16 = some (.addImm 0x2#4 0x20#8) ∧ decodeWord 0x827E#16 = some (.shl 0x2#4 0x7#4) ∧
  decodeWord 0xD125#16 = some (.drw 0x1#4 0x2#4 5) ∧ decodeWord 0xE59E#16 = some (.skp 0x5#4) ∧
  decodeWord 0xF115#16 = some (.ldDtVx 0x1#4) ∧ decodeWord 0xF265#16 = some (.ldVxMem 0x2#4) ∧
  decodeWord 0x0000#16 = none ∧ decodeWord 0x5121#16 = none

/-- Decoding the encoding of a well-formed instruction gives it back, and the bytes after it (R80, R91; the
well-formedness of Dxyn's count is the model's form, log 17). -/
def Obligations.DecodeOfEncodeIsTheInstruction : Prop :=
  ∀ (i : Instr) (rest : List Byte), i.wellFormed = true →
    decodeWord (encode i) = some i ∧ decode (encodeBytes i ++ rest) = .ok (i, rest)

/-- A word that decodes is the encoding of the instruction it decodes to, which is well formed: no word has two meanings
and no bit of a word is dropped (R91, R93). -/
def Obligations.EncodeOfDecodeIsTheWord : Prop :=
  ∀ (w : Word) (i : Instr), decodeWord w = some i → i.wellFormed = true ∧ encode i = w

/-- The decoder takes a word to an instruction of a row exactly when the row's mask and value match it, no two of the 34
rows match the same word (a passage R91 marks derived), and a word no row matches has no meaning (R91, R85). -/
def Obligations.DecoderIsTheOpcodeMap : Prop :=
  opcodeRows.length = 34 ∧
  (∀ (w : Word) (r : OpcodeRow), r ∈ opcodeRows →
    ((w &&& r.mask) = r.value ↔ ∃ i, decodeWord w = some i ∧ i.pattern = r.pattern)) ∧
  (∀ (w : Word) (r r' : OpcodeRow), r ∈ opcodeRows → r' ∈ opcodeRows →
    (w &&& r.mask) = r.value → (w &&& r'.mask) = r'.value → r = r') ∧
  (∀ w : Word, decodeWord w = none ↔ legalWord w = false)

/-- The illegal encodings are exactly the six ranges of R92; those of families 0, 5 and 9 are the decisions D5 and D6,
log 15. -/
def Obligations.IllegalEncodingsAreTheSixRanges : Prop :=
  ∀ w : Word, decodeWord w = none ↔
    (fieldFamily w = 0x0#4 ∧ w ≠ 0x00E0#16 ∧ w ≠ 0x00EE#16) ∨
    (fieldFamily w = 0x5#4 ∧ fieldN w ≠ 0x0#4) ∨
    (fieldFamily w = 0x8#4 ∧ (fieldN w).toNat ∈ [0x8, 0x9, 0xA, 0xB, 0xC, 0xD, 0xF]) ∨
    (fieldFamily w = 0x9#4 ∧ fieldN w ≠ 0x0#4) ∨
    (fieldFamily w = 0xE#4 ∧ (fieldKk w).toNat ∉ [0x9E, 0xA1]) ∨
    (fieldFamily w = 0xF#4 ∧ (fieldKk w).toNat ∉ [0x07, 0x0A, 0x15, 0x18, 0x1E, 0x29, 0x33, 0x55, 0x65])

/-! ## The cycle -/

/-- The fetch: big-endian, PC advanced by 2, nothing else changed; out of range at PC, else at PC + 1 (30_encoding.md
R83). -/
def Obligations.FetchReadsTwoBytesBigEndian : Prop :=
  ∀ s : State,
    (s.pc.toNat + 1 < 4096 → ∃ t, s.fetch = .ok t ∧
      t.ir.toNat = (s.memByte s.pc.toNat).toNat * 256 + (s.memByte (s.pc.toNat + 1)).toNat ∧
      t.pc = s.pc + 2#16 ∧ t = { s with ir := t.ir, pc := t.pc }) ∧
    (s.run = .running → 4096 ≤ s.pc.toNat → step s = .fault (.memoryRange s.pc.toNat none s.pc)) ∧
    (s.run = .running → s.pc.toNat = 4095 → step s = .fault (.memoryRange 4096 none s.pc))

/-- When the two bytes at PC decode to an instruction, a step is its execution on the fetched state, and then, if it
answers a next state, the end of the cycle (30_encoding.md R88; the order of the steps is the decision D2, log 15). -/
def Obligations.StepRunsTheDecodedInstruction : Prop :=
  ∀ (s : State) (i : Instr), s.run = .running → s.pc.toNat + 1 < 4096 →
    decode [s.memByte s.pc.toNat, s.memByte (s.pc.toNat + 1)] = .ok (i, []) →
    let f : State := { s with ir := s.memByte s.pc.toNat ++ s.memByte (s.pc.toNat + 1), pc := s.pc + 2#16 }
    step s = mapNext State.endCycle (exec i f)

/-- An opcode of no row raises DecodeFault with the opcode and the fetch address, before any execute effect
(30_encoding.md R86). -/
def Obligations.UnrecognizedOpcodeRaisesDecodeFault : Prop :=
  ∀ s : State, s.run = .running → s.pc.toNat + 1 < 4096 →
    legalWord (s.memByte s.pc.toNat ++ s.memByte (s.pc.toNat + 1)) = false →
    step s = .fault (.decodeFault (s.memByte s.pc.toNat ++ s.memByte (s.pc.toNat + 1)) s.pc)

/-- The end of a cycle: the snapshot is overwritten with the host's answer for every key, then each timer above zero is
decremented by exactly 1 (60_exceptions.md R245, R241; D2, log 15); nothing else of the block changes. That the arguments
of a cycle stand in the model's own field is log 1. -/
def Obligations.EndOfCyclePollsAndTicks : Prop :=
  ∀ (s : State) (keys : BitVec 16) (rnd : Byte),
    let t := (s.withInput keys rnd).endCycle
    t.keys = keys ∧ (0 < s.dt.toNat → t.dt.toNat = s.dt.toNat - 1) ∧ (s.dt = 0#8 → t.dt = 0#8) ∧
    (0 < s.st.toNat → t.st.toNat = s.st.toNat - 1) ∧ (s.st = 0#8 → t.st = 0#8) ∧
    t = { s with keys := t.keys, dt := t.dt, st := t.st, env := t.env }

/-- A completed cycle ends with the keys it was given in the snapshot, still running (30_encoding.md R88; 60_exceptions.md
R245; D2, log 15). That exactly that input is used up is bookkeeping of the model's own field `env`, log 1. -/
def Obligations.CompletedCycleHoldsItsKeys : Prop :=
  ∀ (s t : State) (keys : BitVec 16) (rnd : Byte), cycle keys rnd s = .next t →
    t.keys = keys ∧ t.run = .running ∧ t.env.inputs = s.env.inputs

/-- Every completed cycle ticks both timers once, a waiting cycle of Fx0A too; only Fx15 and Fx18 write a timer, and the
tick of their own cycle follows (60_exceptions.md R241, R242; 70_reset_and_hazards.md R273, marked derived). -/
def Obligations.EveryCompletedCycleTicksOnce : Prop :=
  ∀ (s t : State) (i : Instr), step s = .next t →
    decodeWord (s.memByte s.pc.toNat ++ s.memByte (s.pc.toNat + 1)) = some i →
    (t.dt.toNat = (match i with | .ldDtVx x => (s.getV x).toNat | _ => s.dt.toNat) - 1) ∧
    (t.st.toNat = (match i with | .ldStVx x => (s.getV x).toNat | _ => s.st.toNat) - 1)

/-- A Faulted machine has no step: it answers its record, a cycle changes nothing, and reset runs it again
(60_exceptions.md R233; D17, log 15). After a fault the run state and the record are what the fault said, through any
number of later cycles. That a step of a Faulted machine answers the record again is the model's form, log 11; the form of
the machine after a fault is log 4. -/
def Obligations.FaultHaltsUntilReset : Prop :=
  (∀ (s : State) (r : Fault), s.run = .faulted r → step s = .fault r ∧ s.doReset.run = .running ∧
    ∀ later : List CycleInput, later.foldl (fun u k => u.afterCycle k.keys k.rnd) s = s) ∧
  (∀ (s : State) (keys : BitVec 16) (rnd : Byte) (r : Fault), s.run = .running → cycle keys rnd s = .fault r →
    (s.afterCycle keys rnd).run = .faulted r ∧ (s.afterCycle keys rnd).faultOutput = some r)

/-! ## Control flow (40_control_flow.md) -/

/-- R120. The fault on an empty stack is the decision D7, and that the slot keeps its value is D8 (log 15). That a popped
address is at most 0x1001 is a passage R120 marks derived. The fetch address of the record is log 7. -/
def Obligations.ReturnPopsTheCallStack : Prop :=
  decodeWord 0x00EE#16 = some .ret ∧
  ∀ s : State,
    (s.sp.val = 0 → exec .ret s = .fault (.stackUnderflow s.ir (s.pc - 2#16))) ∧
    (∀ h : 0 < s.sp.val, ∃ t, exec .ret s = .next t ∧ t.sp.val = s.sp.val - 1 ∧
      t.pc = s.stack[s.sp.val - 1]'(by have := s.sp.isLt; omega) ∧ (s.stackOk → t.pc.toNat ≤ 0x1001) ∧
      Frame { pc := true, sp := true } s t)

/-- R121. -/
def Obligations.JumpSetsPc : Prop :=
  ∀ (nnn : Addr12) (s : State), decodeWord (0x1#4 ++ nnn) = some (.jp nnn) ∧
    ∃ t, exec (.jp nnn) s = .next t ∧ t.pc.toNat = nnn.toNat ∧ Frame { pc := true } s t

/-- R122: with 16 return addresses held a call faults (the decision D7, log 15), with fewer it pushes the address after
it. The fetch address of the record is log 7. -/
def Obligations.CallPushesTheReturnAddress : Prop :=
  ∀ (nnn : Addr12) (s : State), decodeWord (0x2#4 ++ nnn) = some (.call nnn) ∧
    (s.sp.val = 16 → exec (.call nnn) s = .fault (.stackOverflow s.ir (s.pc - 2#16))) ∧
    (∀ h : s.sp.val < 16, ∃ t, exec (.call nnn) s = .next t ∧ t.sp.val = s.sp.val + 1 ∧
      t.stack[s.sp.val]'h = s.pc ∧ (∀ j : Fin 16, j.val ≠ s.sp.val → t.stack[j] = s.stack[j]) ∧
      t.pc.toNat = nnn.toNat ∧ Frame { pc := true, sp := true, stack := true } s t)

/-- R123 and R124. -/
def Obligations.SkipOnImmediate : Prop :=
  ∀ (x : RegIx) (kk : Byte) (s : State),
    decodeWord (0x3#4 ++ x ++ kk) = some (.seImm x kk) ∧ SkipsWhen (s.getV x = kk) (.seImm x kk) s ∧
    decodeWord (0x4#4 ++ x ++ kk) = some (.sneImm x kk) ∧ SkipsWhen (s.getV x ≠ kk) (.sneImm x kk) s

/-- R125 and R126. That a non-zero low nibble is illegal is the decision D6, log 15. -/
def Obligations.SkipOnRegisters : Prop :=
  ∀ (x y : RegIx) (s : State),
    decodeWord (0x5#4 ++ x ++ y ++ 0x0#4) = some (.seReg x y) ∧ SkipsWhen (s.getV x = s.getV y) (.seReg x y) s ∧
    decodeWord (0x9#4 ++ x ++ y ++ 0x0#4) = some (.sneReg x y) ∧ SkipsWhen (s.getV x ≠ s.getV y) (.sneReg x y) s ∧
    (∀ n : BitVec 4, n ≠ 0#4 → decodeWord (0x5#4 ++ x ++ y ++ n) = none ∧ decodeWord (0x9#4 ++ x ++ y ++ n) = none)

/-- R127: always V0, the sum not reduced to 12 bits (the decision D10, log 15). -/
def Obligations.JumpWithOffsetAddsV0 : Prop :=
  ∀ (nnn : Addr12) (s : State), decodeWord (0xB#4 ++ nnn) = some (.jpV0 nnn) ∧
    ∃ t, exec (.jpV0 nnn) s = .next t ∧ t.pc.toNat = (s.getV 0x0#4).toNat + nnn.toNat ∧ Frame { pc := true } s t

/-- A return from any state with the stack a call left resumes after the call, with SP as before it (95_test_vectors.md
L1.6; R120, R122). -/
def Obligations.CallThenReturnRestoresPcAndSp : Prop :=
  ∀ (nnn : Addr12) (s t r : State), exec (.call nnn) s = .next t → r.sp = t.sp → r.stack = t.stack →
    ∃ u, exec .ret r = .next u ∧ u.pc = s.pc ∧ u.sp = s.sp

/-! ## Arithmetic and logic (41_alu.md) -/

/-- R142. -/
def Obligations.LoadImmediateSetsRegister : Prop :=
  ∀ (x : RegIx) (kk : Byte) (s : State), decodeWord (0x6#4 ++ x ++ kk) = some (.ldImm x kk) ∧
    ∃ t, exec (.ldImm x kk) s = .next t ∧ t.getV x = kk ∧ Frame { regs := [x] } s t

/-- R143: modulo 256, no flag. -/
def Obligations.AddImmediateWrapsWithoutFlag : Prop :=
  ∀ (x : RegIx) (kk : Byte) (s : State), decodeWord (0x7#4 ++ x ++ kk) = some (.addImm x kk) ∧
    ∃ t, exec (.addImm x kk) s = .next t ∧ (t.getV x).toNat = ((s.getV x).toNat + kk.toNat) % 256 ∧
      Frame { regs := [x] } s t

/-- R144. -/
def Obligations.CopyRegister : Prop :=
  ∀ (x y : RegIx) (s : State), decodeWord (0x8#4 ++ x ++ y ++ 0x0#4) = some (.ldReg x y) ∧
    ∃ t, exec (.ldReg x y) s = .next t ∧ t.getV x = s.getV y ∧ Frame { regs := [x] } s t

/-- R145, R146 and R147, bit by bit; that VF is not written is the decision D4, log 15. -/
def Obligations.LogicWithoutFlag : Prop :=
  ∀ (x y : RegIx) (s : State),
    decodeWord (0x8#4 ++ x ++ y ++ 0x1#4) = some (.orReg x y) ∧
    decodeWord (0x8#4 ++ x ++ y ++ 0x2#4) = some (.andReg x y) ∧
    decodeWord (0x8#4 ++ x ++ y ++ 0x3#4) = some (.xorReg x y) ∧
    (∃ t, exec (.orReg x y) s = .next t ∧ Frame { regs := [x] } s t ∧
      ∀ k < 8, (t.getV x).getLsbD k = ((s.getV x).getLsbD k || (s.getV y).getLsbD k)) ∧
    (∃ t, exec (.andReg x y) s = .next t ∧ Frame { regs := [x] } s t ∧
      ∀ k < 8, (t.getV x).getLsbD k = ((s.getV x).getLsbD k && (s.getV y).getLsbD k)) ∧
    (∃ t, exec (.xorReg x y) s = .next t ∧ Frame { regs := [x] } s t ∧
      ∀ k < 8, (t.getV x).getLsbD k = ((s.getV x).getLsbD k ^^ (s.getV y).getLsbD k))

/-- R148: VF is the carry, and with x = F the sum. -/
def Obligations.AddRegistersWithCarry : Prop :=
  ∀ (x y : RegIx) (s : State), decodeWord (0x8#4 ++ x ++ y ++ 0x4#4) = some (.addReg x y) ∧
    ∃ t, exec (.addReg x y) s = .next t ∧ (t.getV x).toNat = ((s.getV x).toNat + (s.getV y).toNat) % 256 ∧
      (x ≠ 0xF#4 → t.getV 0xF#4 = if (s.getV x).toNat + (s.getV y).toNat > 255 then 1#8 else 0#8) ∧
      Frame { regs := [x, 0xF#4] } s t

/-- R149 and R151: VF is 1 exactly when the minuend is strictly greater, and with x = F the difference. -/
def Obligations.SubtractWithStrictFlag : Prop :=
  ∀ (x y : RegIx) (s : State),
    decodeWord (0x8#4 ++ x ++ y ++ 0x5#4) = some (.sub x y) ∧
    (∃ t, exec (.sub x y) s = .next t ∧
      ((t.getV x).toNat : Int) = (((s.getV x).toNat : Int) - (s.getV y).toNat) % 256 ∧
      (x ≠ 0xF#4 → t.getV 0xF#4 = if (s.getV x).toNat > (s.getV y).toNat then 1#8 else 0#8) ∧
      Frame { regs := [x, 0xF#4] } s t) ∧
    decodeWord (0x8#4 ++ x ++ y ++ 0x7#4) = some (.subn x y) ∧
    (∃ t, exec (.subn x y) s = .next t ∧
      ((t.getV x).toNat : Int) = (((s.getV y).toNat : Int) - (s.getV x).toNat) % 256 ∧
      (x ≠ 0xF#4 → t.getV 0xF#4 = if (s.getV y).toNat > (s.getV x).toNat then 1#8 else 0#8) ∧
      Frame { regs := [x, 0xF#4] } s t)

/-- R150 and R152: V[x] is shifted whatever y is, VF is the bit shifted out, and with x = F the result. -/
def Obligations.ShiftByOneIntoVF : Prop :=
  ∀ (x y : RegIx) (s : State),
    decodeWord (0x8#4 ++ x ++ y ++ 0x6#4) = some (.shr x y) ∧
    (∃ t, exec (.shr x y) s = .next t ∧ (t.getV x).toNat = (s.getV x).toNat / 2 ∧
      (x ≠ 0xF#4 → (t.getV 0xF#4).toNat = (s.getV x).toNat % 2) ∧ Frame { regs := [x, 0xF#4] } s t) ∧
    decodeWord (0x8#4 ++ x ++ y ++ 0xE#4) = some (.shl x y) ∧
    (∃ t, exec (.shl x y) s = .next t ∧ (t.getV x).toNat = (2 * (s.getV x).toNat) % 256 ∧
      (x ≠ 0xF#4 → (t.getV 0xF#4).toNat = (s.getV x).toNat / 128) ∧ Frame { regs := [x, 0xF#4] } s t)

/-- R153, for whatever random byte the cycle is given (D16). That the byte stands in the model's own field is log 1. -/
def Obligations.RandomByteIsMasked : Prop :=
  ∀ (x : RegIx) (kk : Byte) (s : State) (keys : BitVec 16) (rnd : Byte),
    decodeWord (0xC#4 ++ x ++ kk) = some (.rnd x kk) ∧
    (∃ t, exec (.rnd x kk) s = .next t ∧ t.getV x = s.env.input.rnd &&& kk ∧ Frame { regs := [x] } s t) ∧
    (s.withInput keys rnd).env.input.rnd = rnd

/-! ## Display (42_display.md) -/

/-- R170. -/
def Obligations.ClearTurnsEveryCellOff : Prop :=
  decodeWord 0x00E0#16 = some .cls ∧
  ∀ s : State, ∃ t, exec .cls s = .next t ∧ (∀ c, t.cell c = 0x00#8) ∧ Frame { fb := true } s t

/-- R171. Where every row is in range (and for n = 0 always): each cell under a set bit is XORed with 0xFF, once, every
other cell is as before, and VF is 1 exactly when some cell under a set bit was on. Where a row is out of range:
MemoryRange of the first such row. The n = 0 case, and that x = F or y = F reads VF before its reset, are the decision
D26, log 15. The frame buffer is in its canonical form (Safety.lean; log 6). -/
def Obligations.DrawXorsTheSpriteAndFlagsCollision : Prop :=
  ∀ (x y : RegIx) (n : Nat) (s : State), n < 16 → s.fbOk →
    decodeWord (0xD#4 ++ x ++ y ++ BitVec.ofNat 4 n) = some (.drw x y n) ∧
    ((s.i.toNat + n ≤ 4096 ∨ n = 0) → ∃ t, exec (.drw x y n) s = .next t ∧
      (∀ c, UnderSprite x y n s c → t.cell c = s.cell c ^^^ 0xFF#8) ∧
      (∀ c, ¬ UnderSprite x y n s c → t.cell c = s.cell c) ∧
      ((∃ c, UnderSprite x y n s c ∧ s.cell c = 0xFF#8) → t.getV 0xF#4 = 1#8) ∧
      ((¬ ∃ c, UnderSprite x y n s c ∧ s.cell c = 0xFF#8) → t.getV 0xF#4 = 0#8) ∧
      Frame { regs := [0xF#4], fb := true } s t) ∧
    (∀ k, FirstOutOfRange s.i.toNat n k → RaisesRange (s.i.toNat + k) (.drw x y n) s)

/-- R172: the whole byte, not its low nibble (the decision D12, log 15). -/
def Obligations.FontAddressOfTheWholeByte : Prop :=
  ∀ (x : RegIx) (s : State), decodeWord (0xF#4 ++ x ++ 0x29#8) = some (.ldFVx x) ∧
    ∃ t, exec (.ldFVx x) s = .next t ∧ t.i.toNat = 0x050 + 5 * (s.getV x).toNat ∧ Frame { i := true } s t

/-! ## Keypad (43_keypad.md) -/

/-- R190 and R191. The KeyIndex fault is the decision D13, log 15; the fetch address of its record is log 7. -/
def Obligations.SkipOnKey : Prop :=
  ∀ (x : RegIx) (s : State),
    decodeWord (0xE#4 ++ x ++ 0x9E#8) = some (.skp x) ∧ decodeWord (0xE#4 ++ x ++ 0xA1#8) = some (.sknp x) ∧
    ((s.getV x).toNat > 0x0F →
      exec (.skp x) s = .fault (.keyIndex (s.getV x) s.ir (s.pc - 2#16)) ∧
      exec (.sknp x) s = .fault (.keyIndex (s.getV x) s.ir (s.pc - 2#16))) ∧
    ((s.getV x).toNat ≤ 0x0F →
      SkipsWhen (s.keys.getLsbD (s.getV x).toNat = true) (.skp x) s ∧
      SkipsWhen (s.keys.getLsbD (s.getV x).toNat = false) (.sknp x) s)

/-- R192: with no key held PC is the fetch address again and nothing else changes; else V[x] takes the index of some held
key (the decisions D14, D15 and D32, log 15; the choice's form is log 3). -/
def Obligations.WaitForKey : Prop :=
  ∀ (x : RegIx) (s : State), decodeWord (0xF#4 ++ x ++ 0x0A#8) = some (.ldVxK x) ∧
    (s.keys = 0#16 → ∃ t, exec (.ldVxK x) s = .next t ∧ t.pc = s.pc - 2#16 ∧ Frame { pc := true } s t) ∧
    (s.keys ≠ 0#16 → ∃ t k, exec (.ldVxK x) s = .next t ∧ k < 16 ∧ s.keys.getLsbD k = true ∧
      t.getV x = BitVec.ofNat 8 k ∧ Frame { regs := [x] } s t)

/-- The choice of Fx0A is free among the held keys: some draw takes each of them, and no draw takes another (R192, D14,
log 15). That a draw decides it is the model's form, log 3. -/
def Obligations.EveryHeldKeyCanBeChosen : Prop :=
  ∀ keys : BitVec 16,
    (∀ k < 16, keys.getLsbD k = true → ∃ draw, chooseKey keys draw = some k) ∧
    (∀ draw k, chooseKey keys draw = some k → k < 16 ∧ keys.getLsbD k = true) ∧
    (∀ draw, chooseKey keys draw = none ↔ keys = 0#16)

/-! ## Timers (44_timers.md) -/

/-- R200. -/
def Obligations.ReadDelayTimer : Prop :=
  ∀ (x : RegIx) (s : State), decodeWord (0xF#4 ++ x ++ 0x07#8) = some (.ldVxDt x) ∧
    ∃ t, exec (.ldVxDt x) s = .next t ∧ t.getV x = s.dt ∧ Frame { regs := [x] } s t

/-- R201 and R202. That the tick of the same cycle follows the write is a passage they mark derived. -/
def Obligations.SetTimers : Prop :=
  ∀ (x : RegIx) (s : State),
    decodeWord (0xF#4 ++ x ++ 0x15#8) = some (.ldDtVx x) ∧
    (∃ t, exec (.ldDtVx x) s = .next t ∧ t.dt = s.getV x ∧ t.endCycle.dt.toNat = (s.getV x).toNat - 1 ∧
      Frame { dt := true } s t) ∧
    decodeWord (0xF#4 ++ x ++ 0x18#8) = some (.ldStVx x) ∧
    (∃ t, exec (.ldStVx x) s = .next t ∧ t.st = s.getV x ∧ t.endCycle.st.toNat = (s.getV x).toNat - 1 ∧
      ((s.getV x).toNat = 1 → t.endCycle.tone = false) ∧ Frame { st := true } s t)

/-! ## Address register and memory (45_index_memory.md) -/

/-- R210. -/
def Obligations.LoadAddressRegister : Prop :=
  ∀ (nnn : Addr12) (s : State), decodeWord (0xA#4 ++ nnn) = some (.ldI nnn) ∧
    ∃ t, exec (.ldI nnn) s = .next t ∧ t.i.toNat = nnn.toNat ∧ Frame { i := true } s t

/-- R211: modulo 2^16 and no range check (D11), no flag (D4; log 15). -/
def Obligations.AddToAddressRegister : Prop :=
  ∀ (x : RegIx) (s : State), decodeWord (0xF#4 ++ x ++ 0x1E#8) = some (.addIVx x) ∧
    ∃ t, exec (.addIVx x) s = .next t ∧ t.i.toNat = (s.i.toNat + (s.getV x).toNat) % 65536 ∧ Frame { i := true } s t

/-- R212: the digits at I, I + 1, I + 2, or MemoryRange of the first of them out of range, with the record of
60_exceptions.md R231 and R232 (D31, log 15; log 7). The premise, main memory in its canonical form (Safety.lean), is the
model's, log 6. -/
def Obligations.StoreDecimalDigits : Prop :=
  ∀ (x : RegIx) (s : State), s.memOk →
    decodeWord (0xF#4 ++ x ++ 0x33#8) = some (.ldBVx x) ∧
    (s.i.toNat + 3 ≤ 4096 → ∃ t, exec (.ldBVx x) s = .next t ∧
      (t.memByte s.i.toNat).toNat = (s.getV x).toNat / 100 ∧
      (t.memByte (s.i.toNat + 1)).toNat = (s.getV x).toNat / 10 % 10 ∧
      (t.memByte (s.i.toNat + 2)).toNat = (s.getV x).toNat % 10 ∧
      Frame { memFrom := s.i.toNat, memCount := 3 } s t) ∧
    (∀ k, FirstOutOfRange s.i.toNat 3 k → RaisesRange (s.i.toNat + k) (.ldBVx x) s)

/-- R213: V0 to V[x] at I to I + x, I unchanged (the decision D4, log 15), or MemoryRange of the first address out of
range (60_exceptions.md R231, R232; log 7). The premise, main memory in its canonical form (Safety.lean), is the model's,
log 6. -/
def Obligations.StoreRegisters : Prop :=
  ∀ (x : RegIx) (s : State), s.memOk →
    decodeWord (0xF#4 ++ x ++ 0x55#8) = some (.ldMemVx x) ∧
    (s.i.toNat + (x.toNat + 1) ≤ 4096 → ∃ t, exec (.ldMemVx x) s = .next t ∧
      (∀ j : RegIx, j.toNat ≤ x.toNat → t.memByte (s.i.toNat + j.toNat) = s.getV j) ∧
      Frame { memFrom := s.i.toNat, memCount := x.toNat + 1 } s t) ∧
    (∀ k, FirstOutOfRange s.i.toNat (x.toNat + 1) k → RaisesRange (s.i.toNat + k) (.ldMemVx x) s)

/-- R214: V0 to V[x] from I to I + x, the registers above x and I unchanged (D4, log 15), or MemoryRange of the first
address out of range (60_exceptions.md R231, R232; log 7). -/
def Obligations.LoadRegisters : Prop :=
  ∀ (x : RegIx) (s : State),
    decodeWord (0xF#4 ++ x ++ 0x65#8) = some (.ldVxMem x) ∧
    (s.i.toNat + (x.toNat + 1) ≤ 4096 → ∃ t, exec (.ldVxMem x) s = .next t ∧
      (∀ j : RegIx, j.toNat ≤ x.toNat → t.getV j = s.memByte (s.i.toNat + j.toNat)) ∧
      Frame { regs := (List.range (x.toNat + 1)).map (BitVec.ofNat 4) } s t) ∧
    (∀ k, FirstOutOfRange s.i.toNat (x.toNat + 1) k → RaisesRange (s.i.toNat + k) (.ldVxMem x) s)

/-- A store over the next instruction is what the next fetch reads: self-modifying code takes effect at once (20_memory.md
R69, D28; 70_reset_and_hazards.md R271; log 15). It is said of Fx55 over both bytes; Fx33, and a store over one of them,
follow from the byte-by-byte statements StoreDecimalDigits, StoreRegisters, EndOfCyclePollsAndTicks and
FetchReadsTwoBytesBigEndian. The premise, main memory in its canonical form (Safety.lean), is the model's, log 6. -/
def Obligations.StoreIsSeenByTheNextFetch : Prop :=
  ∀ (x j k : RegIx) (s t : State), s.memOk → exec (.ldMemVx x) s = .next t →
    j.toNat + 1 = k.toNat → k.toNat ≤ x.toNat → s.pc.toNat = s.i.toNat + j.toNat →
    ∃ f, t.endCycle.fetch = .ok f ∧ f.ir = s.getV j ++ s.getV k

/-! ## Rules of the whole machine -/

/-- Every instruction either answers a next state or raises the one cause its rule names, with the opcode of IR and the fetch
address in the record (60_exceptions.md R232, R234; D19, log 15; the fetch address is log 7). -/
def Obligations.EachInstructionRaisesOnlyItsCause : Prop :=
  ∀ (i : Instr) (s : State),
    (∃ t, exec i s = .next t) ∨
    ((∃ nnn, i = .call nnn) ∧ s.sp.val = 16 ∧ exec i s = .fault (.stackOverflow s.ir (s.pc - 2#16))) ∨
    (i = .ret ∧ s.sp.val = 0 ∧ exec i s = .fault (.stackUnderflow s.ir (s.pc - 2#16))) ∨
    (((∃ x y n, i = .drw x y n) ∨ (∃ x, i = .ldBVx x) ∨ (∃ x, i = .ldMemVx x) ∨ (∃ x, i = .ldVxMem x)) ∧
      ∃ bad, 4096 ≤ bad ∧ RaisesRange bad i s) ∨
    ((∃ x, (i = .skp x ∨ i = .sknp x) ∧ (s.getV x).toNat > 0x0F ∧
      exec i s = .fault (.keyIndex (s.getV x) s.ir (s.pc - 2#16))))

/-- Each register is written only by the instructions of its row in the table of 10_state.md R20. -/
def Obligations.RegistersAreWrittenAsTabled : Prop :=
  ∀ (i : Instr) (s t : State), exec i s = .next t → ∀ j, j ∉ writtenRegs i → t.getV j = s.getV j

/-- SP is written only by 2nnn (SP + 1) and 00EE (SP - 1), and the stack slots only by 2nnn (10_state.md R24, R25). -/
def Obligations.OnlyCallAndReturnMoveSp : Prop :=
  ∀ (i : Instr) (s t : State), exec i s = .next t →
    (t.sp ≠ s.sp → ((∃ nnn, i = .call nnn) ∧ t.sp.val = s.sp.val + 1) ∨ (i = .ret ∧ t.sp.val + 1 = s.sp.val)) ∧
    (t.stack ≠ s.stack → ∃ nnn, i = .call nnn)

/-- I is written only by Annn, Fx1E and Fx29, never as a side effect of a memory access (10_state.md R22; the last is
marked derived). -/
def Obligations.OnlyThreeInstructionsWriteI : Prop :=
  ∀ (i : Instr) (s t : State), exec i s = .next t → t.i ≠ s.i →
    (∃ nnn, i = .ldI nnn) ∨ (∃ x, i = .addIVx x) ∨ (∃ x, i = .ldFVx x)

/-- In the execute step PC is written only by 00EE, 1nnn, 2nnn, Bnnn, by a skip (PC + 2) and by a waiting Fx0A (PC - 2)
(10_state.md R23; 90_conflicts.md C3). -/
def Obligations.OnlyControlFlowWritesPc : Prop :=
  ∀ (i : Instr) (s t : State), exec i s = .next t → t.pc ≠ s.pc →
    (i = .ret ∨ (∃ nnn, i = .jp nnn) ∨ (∃ nnn, i = .call nnn) ∨ (∃ nnn, i = .jpV0 nnn)) ∨
    (t.pc = s.pc + 2#16 ∧ ((∃ x kk, i = .seImm x kk) ∨ (∃ x kk, i = .sneImm x kk) ∨ (∃ x y, i = .seReg x y) ∨
      (∃ x y, i = .sneReg x y) ∨ (∃ x, i = .skp x) ∨ (∃ x, i = .sknp x))) ∨
    (t.pc = s.pc - 2#16 ∧ ∃ x, i = .ldVxK x)

/-- Main memory is written only by Fx33 and Fx55, and the frame buffer only by 00E0 and Dxyn (20_memory.md R51;
10_state.md R32). -/
def Obligations.OnlyStoresWriteMemoryAndOnlyDrawsTheFrameBuffer : Prop :=
  ∀ (i : Instr) (s t : State), exec i s = .next t →
    ((∃ a, t.memByte a ≠ s.memByte a) → (∃ x, i = .ldBVx x) ∨ (∃ x, i = .ldMemVx x)) ∧
    ((∃ c, t.cell c ≠ s.cell c) → i = .cls ∨ (∃ x y n, i = .drw x y n))

/-- No instruction writes the snapshot, IR or the run state, and only Fx15 and Fx18 write a timer (10_state.md R26, R27,
R28, R29, R30). That none writes `env` is about the model's own field, log 1. -/
def Obligations.InstructionsLeaveSnapshotIrAndRunState : Prop :=
  ∀ (i : Instr) (s t : State), exec i s = .next t →
    t.keys = s.keys ∧ t.ir = s.ir ∧ t.run = s.run ∧ t.env = s.env ∧
    (t.dt ≠ s.dt → ∃ x, i = .ldDtVx x) ∧ (t.st ≠ s.st → ∃ x, i = .ldStVx x)

/-- No instruction but Cxkk depends on the inputs of its cycle: the keys it sees are the snapshot's, never the live ones
(10_state.md R28; 00_scope.md R5). That the inputs stand in the model's own field `env` is log 1. -/
def Obligations.OnlyRandomDependsOnTheInputs : Prop :=
  ∀ (i : Instr) (s : State) (inputs : List CycleInput), (∀ x kk, i ≠ .rnd x kk) →
    exec i (withInputs s inputs) = mapNext (fun t => withInputs t inputs) (exec i s)

/-- The invariant every state between two cycles satisfies: both memories canonical, every frame-buffer cell off or on,
every stack slot an address after a fetched instruction, PC at most 0x10FE. Every step keeps it (10_state.md R33;
40_control_flow.md R120, R127; the canonical form is the model's, log 6; the two bounds are DEDUCED from 30_encoding.md
R83, R122 and R127). -/
def Obligations.StepKeepsTheInvariant : Prop :=
  ∀ s t : State, s.Inv → step s = .next t → t.Inv

/-- The invariant holds right after reset, for any FONT_GLYPHS and any host, and after a load. It holds the canonical form
of both memories, the model's own, log 6; it rests on the reset values of the stack and PC, the decision D22, log 5
(70_reset_and_hazards.md R260); and for an image too large on what the model keeps after a LoadFault, log 20 and log 12
(20_memory.md R64 says only that nothing is written). -/
def Obligations.InvariantHoldsAfterResetAndLoad : Prop :=
  (∀ env : Env, (State.resetWith env).Inv) ∧ (∀ (s : State) (image : List Byte), s.Inv → (s.load image).Inv)

/-- Every cell the host can read is 0x00 or 0xFF, before and after every cycle (10_state.md R33; that the instructions
keep it is marked derived). R33 speaks of the cells; the form of the list, `fbOk`, is the model's, log 6. -/
def Obligations.FrameBufferCellsAreOffOrOn : Prop :=
  ∀ s t : State, s.fbOk → (∀ c, s.cell c = 0x00#8 ∨ s.cell c = 0xFF#8) ∧
    (step s = .next t → t.fbOk ∧ ∀ c, t.cell c = 0x00#8 ∨ t.cell c = 0xFF#8)

/-! ## Reset, load and ports -/

/-- What `reset()` leaves (70_reset_and_hazards.md R260), from any state, for any FONT_GLYPHS (D24). The values of V, I,
PC, SP, the stack, IR, the snapshot and the run state are the decisions D22, D23 and D17, log 5; that reset keeps the font
parameter in `env` is log 13. -/
def Obligations.ResetEstablishesEveryPiece : Prop :=
  ∀ s : State,
    let t := s.doReset
    (∀ j, t.getV j = 0#8) ∧ t.i = 0#16 ∧ t.pc = 0x0200#16 ∧ t.sp.val = 0 ∧ (∀ j : Fin 16, t.stack[j] = 0#16) ∧
    t.ir = 0#16 ∧ t.dt = 0#8 ∧ t.st = 0#8 ∧ t.keys = 0#16 ∧ t.run = .running ∧ (∀ c, t.cell c = 0#8) ∧
    (∀ (k : Nat) (h : k < 80), t.memByte (0x050 + k) = s.env.glyphs[k]) ∧
    (∀ a, (a < 0x050 ∨ 0x0A0 ≤ a) → t.memByte a = 0#8)

/-- `load(image)` (20_memory.md R64): the image verbatim from 0x200 and every other byte kept; an image of more than 0xE00
bytes writes nothing and leaves a running machine Faulted (D27, log 15). The model's: the premise, main memory in its
canonical form (log 6); that a step of a Faulted machine answers its record (DEDUCED, log 11); that registers, timers,
frame buffer, snapshot and `env` are kept after a LoadFault (log 20); that an image that fits is copied on a Faulted
machine too (log 12). An image too large on a machine already Faulted, log 12, is left out. -/
def Obligations.LoadCopiesTheImageOrFaults : Prop :=
  ∀ (s : State) (image : List Byte), s.memOk →
    (image.length ≤ 0xE00 →
      (∀ (k : Nat) (h : k < image.length), (s.load image).memByte (0x200 + k) = image[k]) ∧
      (∀ a, (a < 0x200 ∨ 0x200 + image.length ≤ a) → (s.load image).memByte a = s.memByte a) ∧
      s.load image = { s with mem := (s.load image).mem }) ∧
    (0xE00 < image.length → s.run = .running →
      s.load image = { s with run := .faulted (.loadFault image.length) } ∧
      step (s.load image) = .fault (.loadFault image.length))

/-- A cycle after `reset()` with no load fetches 0x0000 at 0x200 and raises DecodeFault (70_reset_and_hazards.md R262, a
passage marked derived), for any FONT_GLYPHS and any host. The reset values it rests on are log 5. -/
def Obligations.CycleWithoutLoadRaisesDecodeFault : Prop :=
  ∀ env : Env, step (State.resetWith env) = .fault (.decodeFault 0x0000#16 0x0200#16)

/-- The outputs: tone is 1 exactly when ST is not zero; the ports read every cell and every byte (60_exceptions.md R244, D30;
R247, R248). -/
def Obligations.PortsReadTheState : Prop :=
  ∀ s : State,
    (s.tone = true ↔ s.st ≠ 0#8) ∧
    s.frameBufferPort.length = 2048 ∧ (∀ c < 2048, s.frameBufferPort[c]? = some (s.cell c)) ∧
    s.diagnostics.memory.length = 4096 ∧ (∀ a < 4096, s.diagnostics.memory[a]? = some (s.memByte a)) ∧
    s.diagnostics.frameBuffer = s.frameBufferPort ∧
    s.diagnostics.ir = s.ir ∧ s.diagnostics.pc = s.pc ∧ s.diagnostics.i = s.i ∧ s.diagnostics.dt = s.dt ∧
    s.diagnostics.st = s.st ∧ s.diagnostics.v = s.v ∧ s.diagnostics.sp = s.sp.val ∧ s.diagnostics.stack = s.stack ∧
    s.diagnostics.keys = s.keys ∧ s.diagnostics.run = s.run
end

