-- ==== Sys2Proof/Laws/Decode.lean ====
section
/-! SUPPORT. The fields of a word composed from its fields (30_encoding.md R81), for the three shapes of pattern, and the
two bytes of a word put together again. -/

namespace Sys2Proof

@[simp] theorem fieldFamily_wordNnn (f : BitVec 4) (a : Addr12) : fieldFamily (wordNnn f a) = f := by
  apply BitVec.eq_of_getLsbD_eq; intro i hi
  simp only [fieldFamily, wordNnn, BitVec.getLsbD_extractLsb', BitVec.getLsbD_append, hi, decide_true, Bool.true_and]
  rw [if_neg (by omega)]; congr 1; omega

@[simp] theorem fieldNnn_wordNnn (f : BitVec 4) (a : Addr12) : fieldNnn (wordNnn f a) = a := by
  apply BitVec.eq_of_getLsbD_eq; intro i hi
  simp only [fieldNnn, wordNnn, BitVec.getLsbD_extractLsb', BitVec.getLsbD_append, hi, decide_true, Bool.true_and]
  rw [if_pos (by omega)]; congr 1; omega

@[simp] theorem fieldFamily_wordXkk (f : BitVec 4) (x : RegIx) (k : Byte) : fieldFamily (wordXkk f x k) = f := by
  apply BitVec.eq_of_getLsbD_eq; intro i hi
  simp only [fieldFamily, wordXkk, BitVec.getLsbD_extractLsb', BitVec.getLsbD_append, hi, decide_true, Bool.true_and]
  rw [if_neg (by omega), if_neg (by omega)]; congr 1; omega

@[simp] theorem fieldX_wordXkk (f : BitVec 4) (x : RegIx) (k : Byte) : fieldX (wordXkk f x k) = x := by
  apply BitVec.eq_of_getLsbD_eq; intro i hi
  simp only [fieldX, wordXkk, BitVec.getLsbD_extractLsb', BitVec.getLsbD_append, hi, decide_true, Bool.true_and]
  rw [if_neg (by omega), if_pos (by omega)]; congr 1; omega

@[simp] theorem fieldKk_wordXkk (f : BitVec 4) (x : RegIx) (k : Byte) : fieldKk (wordXkk f x k) = k := by
  apply BitVec.eq_of_getLsbD_eq; intro i hi
  simp only [fieldKk, wordXkk, BitVec.getLsbD_extractLsb', BitVec.getLsbD_append, hi, decide_true, Bool.true_and]
  rw [if_pos (by omega)]; congr 1; omega

@[simp] theorem fieldFamily_wordXyn (f : BitVec 4) (x y : RegIx) (n : BitVec 4) : fieldFamily (wordXyn f x y n) = f := by
  apply BitVec.eq_of_getLsbD_eq; intro i hi
  simp only [fieldFamily, wordXyn, BitVec.getLsbD_extractLsb', BitVec.getLsbD_append, hi, decide_true, Bool.true_and]
  rw [if_neg (by omega), if_neg (by omega), if_neg (by omega)]; congr 1; omega

@[simp] theorem fieldX_wordXyn (f : BitVec 4) (x y : RegIx) (n : BitVec 4) : fieldX (wordXyn f x y n) = x := by
  apply BitVec.eq_of_getLsbD_eq; intro i hi
  simp only [fieldX, wordXyn, BitVec.getLsbD_extractLsb', BitVec.getLsbD_append, hi, decide_true, Bool.true_and]
  rw [if_neg (by omega), if_neg (by omega), if_pos (by omega)]; congr 1; omega

@[simp] theorem fieldY_wordXyn (f : BitVec 4) (x y : RegIx) (n : BitVec 4) : fieldY (wordXyn f x y n) = y := by
  apply BitVec.eq_of_getLsbD_eq; intro i hi
  simp only [fieldY, wordXyn, BitVec.getLsbD_extractLsb', BitVec.getLsbD_append, hi, decide_true, Bool.true_and]
  rw [if_neg (by omega), if_pos (by omega)]; congr 1; omega

@[simp] theorem fieldN_wordXyn (f : BitVec 4) (x y : RegIx) (n : BitVec 4) : fieldN (wordXyn f x y n) = n := by
  apply BitVec.eq_of_getLsbD_eq; intro i hi
  simp only [fieldN, wordXyn, BitVec.getLsbD_extractLsb', BitVec.getLsbD_append, hi, decide_true, Bool.true_and]
  rw [if_pos (by omega)]; congr 1; omega

/-- A word is its family and its twelve low bits. -/
theorem wordNnn_fields (w : Word) : wordNnn (fieldFamily w) (fieldNnn w) = w := by
  apply BitVec.eq_of_getLsbD_eq; intro i hi
  simp only [wordNnn, fieldFamily, fieldNnn, BitVec.getLsbD_append, BitVec.getLsbD_extractLsb']
  split
  · simp [*]
  · simp only [show i - 12 < 4 by omega, decide_true, Bool.true_and]; congr 1; omega

/-- A word is its family, its x and its low byte. -/
theorem wordXkk_fields (w : Word) : wordXkk (fieldFamily w) (fieldX w) (fieldKk w) = w := by
  apply BitVec.eq_of_getLsbD_eq; intro i hi
  simp only [wordXkk, fieldFamily, fieldX, fieldKk, BitVec.getLsbD_append, BitVec.getLsbD_extractLsb']
  split
  · simp [*]
  · split
    · simp only [*, decide_true, Bool.true_and]; congr 1; omega
    · simp only [show i - 8 - 4 < 4 by omega, decide_true, Bool.true_and]; congr 1; omega

/-- A word is its four nibbles. -/
theorem wordXyn_fields (w : Word) : wordXyn (fieldFamily w) (fieldX w) (fieldY w) (fieldN w) = w := by
  apply BitVec.eq_of_getLsbD_eq; intro i hi
  simp only [wordXyn, fieldFamily, fieldX, fieldY, fieldN, BitVec.getLsbD_append, BitVec.getLsbD_extractLsb']
  split
  · simp [*]
  · split
    · simp only [*, decide_true, Bool.true_and]; congr 1; omega
    · split
      · simp only [*, decide_true, Bool.true_and]; congr 1; omega
      · simp only [show i - 4 - 4 - 4 < 4 by omega, decide_true, Bool.true_and]; congr 1; omega

/-- The two bytes of a word compose to it again (R54, R83). -/
@[simp] theorem composeWord_bytes (w : Word) : composeWord (highByte w) (lowByte w) = w := by
  apply BitVec.eq_of_getLsbD_eq; intro i hi
  simp only [composeWord, highByte, lowByte, BitVec.getLsbD_append, BitVec.getLsbD_extractLsb']
  split
  · simp [*]
  · simp only [show i - 8 < 8 by omega, decide_true, Bool.true_and]; congr 1; omega

end Sys2Proof
end

