-- ==== Sys2Proof/Laws/Memory.lean ====
section
/-! SUPPORT. The laws of an address space held as a list: a read after a write to the same address, a write leaves every
other address alone, and every write keeps the canonical form. -/

namespace Sys2Proof.Machine.Memory

variable {d : Nat → Byte} {size : Nat}

@[simp] theorem read_nil (a : Nat) : read d [] a = d a := rfl

theorem read_cons (k : Nat) (b : Byte) (rest : Memory) (a : Nat) :
    read d ((k, b) :: rest) a = if k = a then b else read d rest a := rfl

@[simp] theorem wf_nil : wf d size [] = true := rfl

theorem wf_cons {k : Nat} {b : Byte} {rest : Memory} :
    wf d size ((k, b) :: rest) = true ↔
      k < size ∧ b ≠ d k ∧ (∀ c ∈ rest, k < c.1) ∧ wf d size rest = true := by
  simp [wf, and_assoc]

/-- An address below every listed one reads as an unlisted one. -/
theorem read_below {m : Memory} {a : Nat} (h : ∀ c ∈ m, a < c.1) : read d m a = d a := by
  induction m with
  | nil => rfl
  | cons c rest ih =>
    obtain ⟨k, b⟩ := c
    have hk : a < k := h (k, b) (by simp)
    rw [read_cons, if_neg (by omega), ih fun c hc => h c (by simp [hc])]

/-- A write leaves every other address alone, in any list. -/
theorem read_write_other (m : Memory) {a b : Nat} (x : Byte) (h : b ≠ a) :
    read d (write d m a x) b = read d m b := by
  have h' : a ≠ b := fun e => h e.symm
  induction m with
  | nil => unfold write; split <;> simp [read_cons, h']
  | cons c rest ih =>
    obtain ⟨k, y⟩ := c
    simp only [write]
    split
    · split <;> simp [read_cons, h']
    · split
      · subst_vars; split <;> simp [read_cons, h']
      · simp [read_cons, ih]

/-- A read after a write to the same address gives the value written. -/
theorem read_write_same {m : Memory} (hm : wf d size m = true) (a : Nat) (x : Byte) :
    read d (write d m a x) a = x := by
  induction m with
  | nil => unfold write; split <;> simp_all [read_cons]
  | cons c rest ih =>
    obtain ⟨k, y⟩ := c
    obtain ⟨-, -, habove, hrest⟩ := wf_cons.1 hm
    simp only [write]
    split
    · split
      · have : read d ((k, y) :: rest) a = d a := read_below (by
          intro c hc
          rcases List.mem_cons.1 hc with rfl | hc
          · assumption
          · have := habove c hc; omega)
        simp_all
      · simp [read_cons]
    · split
      · subst_vars
        split
        · simp_all [read_below habove]
        · simp [read_cons]
      · rw [read_cons, if_neg (by omega), ih hrest]

theorem read_write {m : Memory} (hm : wf d size m = true) (a b : Nat) (x : Byte) :
    read d (write d m a x) b = if b = a then x else read d m b := by
  split
  · subst_vars; exact read_write_same hm _ _
  · exact read_write_other m x ‹_›

/-- Every cell of a written memory is the new one or was there. -/
theorem mem_write {m : Memory} {a : Nat} {x : Byte} {c : Host.Cell} (h : c ∈ write d m a x) :
    (c = (a, x) ∧ x ≠ d a) ∨ c ∈ m := by
  induction m with
  | nil => unfold write at h; split at h <;> simp_all
  | cons e rest ih =>
    obtain ⟨k, y⟩ := e
    simp only [write] at h
    split at h
    · split at h <;> simp_all
    · split at h
      · split at h
        · exact .inr (by simp [h])
        · rcases List.mem_cons.1 h with rfl | h
          · exact .inl ⟨rfl, ‹_›⟩
          · exact .inr (by simp [h])
      · rcases List.mem_cons.1 h with rfl | h
        · exact .inr (by simp)
        · rcases ih h with h | h
          · exact .inl h
          · exact .inr (by simp [h])

/-- Every write inside the space keeps the canonical form. -/
theorem wf_write {m : Memory} (hm : wf d size m = true) {a : Nat} (ha : a < size) (x : Byte) :
    wf d size (write d m a x) = true := by
  induction m with
  | nil =>
    unfold write
    split
    · rfl
    · exact wf_cons.2 ⟨ha, ‹_›, by simp, rfl⟩
  | cons c rest ih =>
    obtain ⟨k, y⟩ := c
    obtain ⟨hk, hy, habove, hrest⟩ := wf_cons.1 hm
    simp only [write]
    split
    · split
      · exact hm
      · refine wf_cons.2 ⟨ha, ‹_›, ?_, hm⟩
        intro c hc
        rcases List.mem_cons.1 hc with rfl | hc
        · assumption
        · have := habove c hc; omega
    · split
      · subst_vars
        split
        · exact hrest
        · exact wf_cons.2 ⟨ha, ‹_›, habove, hrest⟩
      · refine wf_cons.2 ⟨hk, hy, ?_, ih hrest⟩
        intro c hc
        rcases mem_write hc with ⟨rfl, -⟩ | hc
        · simp only; omega
        · exact habove c hc

/-- A bulk write inside the space keeps the canonical form. -/
theorem wf_writeList (xs : List Byte) {m : Memory} (hm : wf d size m = true) {a : Nat} (ha : a + xs.length ≤ size) :
    wf d size (writeList d m a xs) = true := by
  induction xs generalizing m a with
  | nil => exact hm
  | cons x xs ih =>
    simp only [List.length_cons] at ha
    exact ih (wf_write hm (by omega) x) (by omega)

/-- What a bulk write leaves: the new byte inside its range, the old one outside. -/
theorem read_writeList_outside (xs : List Byte) (m : Memory) {a b : Nat} (h : b < a ∨ a + xs.length ≤ b) :
    read d (writeList d m a xs) b = read d m b := by
  induction xs generalizing m a with
  | nil => rfl
  | cons x xs ih =>
    simp only [List.length_cons] at h
    rw [writeList, ih _ (by omega), read_write_other m x (by omega)]

theorem read_writeList_inside (xs : List Byte) {m : Memory} (hm : wf d size m = true) {a k : Nat}
    (ha : a + xs.length ≤ size) (hk : k < xs.length) : read d (writeList d m a xs) (a + k) = xs[k] := by
  induction xs generalizing m a k with
  | nil => simp at hk
  | cons x xs ih =>
    simp only [List.length_cons] at ha hk
    cases k with
    | zero => rw [writeList, read_writeList_outside xs _ (by omega)]; simpa using read_write_same hm a x
    | succ k =>
      have := ih (wf_write hm (a := a) (by omega) x) (a := a + 1) (k := k) (by omega) (by omega)
      rw [writeList, show a + (k + 1) = a + 1 + k by omega, this]
      rfl

/-- Two canonical memories that read alike are the same list. -/
theorem eq_of_read_eq {m n : Memory} (hm : wf d size m = true) (hn : wf d size n = true)
    (h : ∀ a, read d m a = read d n a) : m = n := by
  induction m generalizing n with
  | nil =>
    cases n with
    | nil => rfl
    | cons c rest =>
      obtain ⟨k, b⟩ := c
      have h1 := h k
      simp only [read_nil, read_cons, if_true] at h1
      exact absurd h1.symm (wf_cons.1 hn).2.1
  | cons c rest ih =>
    obtain ⟨k, b⟩ := c
    obtain ⟨-, hb, habove, hrest⟩ := wf_cons.1 hm
    cases n with
    | nil =>
      have h1 := h k
      simp only [read_nil, read_cons, if_true] at h1
      exact absurd h1 hb
    | cons e rest' =>
      obtain ⟨k', b'⟩ := e
      obtain ⟨-, hb', habove', hrest'⟩ := wf_cons.1 hn
      have hk : k = k' := by
        rcases Nat.lt_trichotomy k k' with hlt | heq | hgt
        · have h1 := h k
          rw [read_cons, if_pos rfl, read_cons, if_neg (by omega),
            read_below (fun c hc => by have := habove' c hc; omega)] at h1
          exact absurd h1 hb
        · exact heq
        · have h1 := h k'
          rw [read_cons, if_neg (by omega), read_cons, if_pos rfl,
            read_below (fun c hc => by have := habove c hc; omega)] at h1
          exact absurd h1.symm hb'
      subst hk
      have hbb : b = b' := by have h1 := h k; simpa [read_cons] using h1
      subst hbb
      rw [ih hrest hrest' fun a => ?_]
      by_cases ha : k = a
      · subst ha; rw [read_below habove, read_below habove']
      · have h1 := h a; simpa [read_cons, ha] using h1

end Sys2Proof.Machine.Memory
end

