-- ==== Sys2Proof/Laws/State.lean ====
section
/-! SUPPORT. One lemma per field per named update of State: what the update stores, and that it leaves the rest. -/

namespace Sys2Proof.Machine

variable (s : State)

/-! ## setV -/

@[simp] theorem setV_v (x : RegIx) (b : Byte) : (s.setV x b).v = s.v.set x.toNat b x.isLt := rfl
@[simp] theorem setV_i (x : RegIx) (b : Byte) : (s.setV x b).i = s.i := rfl
@[simp] theorem setV_pc (x : RegIx) (b : Byte) : (s.setV x b).pc = s.pc := rfl
@[simp] theorem setV_sp (x : RegIx) (b : Byte) : (s.setV x b).sp = s.sp := rfl
@[simp] theorem setV_stack (x : RegIx) (b : Byte) : (s.setV x b).stack = s.stack := rfl
@[simp] theorem setV_dt (x : RegIx) (b : Byte) : (s.setV x b).dt = s.dt := rfl
@[simp] theorem setV_st (x : RegIx) (b : Byte) : (s.setV x b).st = s.st := rfl
@[simp] theorem setV_keys (x : RegIx) (b : Byte) : (s.setV x b).keys = s.keys := rfl
@[simp] theorem setV_ir (x : RegIx) (b : Byte) : (s.setV x b).ir = s.ir := rfl
@[simp] theorem setV_run (x : RegIx) (b : Byte) : (s.setV x b).run = s.run := rfl
@[simp] theorem setV_mem (x : RegIx) (b : Byte) : (s.setV x b).mem = s.mem := rfl
@[simp] theorem setV_fb (x : RegIx) (b : Byte) : (s.setV x b).fb = s.fb := rfl
@[simp] theorem setV_env (x : RegIx) (b : Byte) : (s.setV x b).env = s.env := rfl
@[simp] theorem setV_memByte (x : RegIx) (b : Byte) (a : Nat) : (s.setV x b).memByte a = s.memByte a := rfl
@[simp] theorem setV_cell (x : RegIx) (b : Byte) (c : Nat) : (s.setV x b).cell c = s.cell c := rfl

/-! ## setI -/

@[simp] theorem setI_v (a : Word) : (s.setI a).v = s.v := rfl
@[simp] theorem setI_i (a : Word) : (s.setI a).i = a := rfl
@[simp] theorem setI_pc (a : Word) : (s.setI a).pc = s.pc := rfl
@[simp] theorem setI_sp (a : Word) : (s.setI a).sp = s.sp := rfl
@[simp] theorem setI_stack (a : Word) : (s.setI a).stack = s.stack := rfl
@[simp] theorem setI_dt (a : Word) : (s.setI a).dt = s.dt := rfl
@[simp] theorem setI_st (a : Word) : (s.setI a).st = s.st := rfl
@[simp] theorem setI_keys (a : Word) : (s.setI a).keys = s.keys := rfl
@[simp] theorem setI_ir (a : Word) : (s.setI a).ir = s.ir := rfl
@[simp] theorem setI_run (a : Word) : (s.setI a).run = s.run := rfl
@[simp] theorem setI_mem (a : Word) : (s.setI a).mem = s.mem := rfl
@[simp] theorem setI_fb (a : Word) : (s.setI a).fb = s.fb := rfl
@[simp] theorem setI_env (a : Word) : (s.setI a).env = s.env := rfl
@[simp] theorem setI_getV (a : Word) (j : RegIx) : (s.setI a).getV j = s.getV j := rfl
@[simp] theorem setI_memByte (a : Word) (k : Nat) : (s.setI a).memByte k = s.memByte k := rfl
@[simp] theorem setI_cell (a : Word) (c : Nat) : (s.setI a).cell c = s.cell c := rfl

/-! ## setPc -/

@[simp] theorem setPc_v (a : Word) : (s.setPc a).v = s.v := rfl
@[simp] theorem setPc_i (a : Word) : (s.setPc a).i = s.i := rfl
@[simp] theorem setPc_pc (a : Word) : (s.setPc a).pc = a := rfl
@[simp] theorem setPc_sp (a : Word) : (s.setPc a).sp = s.sp := rfl
@[simp] theorem setPc_stack (a : Word) : (s.setPc a).stack = s.stack := rfl
@[simp] theorem setPc_dt (a : Word) : (s.setPc a).dt = s.dt := rfl
@[simp] theorem setPc_st (a : Word) : (s.setPc a).st = s.st := rfl
@[simp] theorem setPc_keys (a : Word) : (s.setPc a).keys = s.keys := rfl
@[simp] theorem setPc_ir (a : Word) : (s.setPc a).ir = s.ir := rfl
@[simp] theorem setPc_run (a : Word) : (s.setPc a).run = s.run := rfl
@[simp] theorem setPc_mem (a : Word) : (s.setPc a).mem = s.mem := rfl
@[simp] theorem setPc_fb (a : Word) : (s.setPc a).fb = s.fb := rfl
@[simp] theorem setPc_env (a : Word) : (s.setPc a).env = s.env := rfl
@[simp] theorem setPc_getV (a : Word) (j : RegIx) : (s.setPc a).getV j = s.getV j := rfl
@[simp] theorem setPc_memByte (a : Word) (k : Nat) : (s.setPc a).memByte k = s.memByte k := rfl
@[simp] theorem setPc_cell (a : Word) (c : Nat) : (s.setPc a).cell c = s.cell c := rfl

/-! ## skip -/

@[simp] theorem skip_v : (s.skip).v = s.v := rfl
@[simp] theorem skip_i : (s.skip).i = s.i := rfl
@[simp] theorem skip_pc : (s.skip).pc = s.pc + 2#16 := rfl
@[simp] theorem skip_sp : (s.skip).sp = s.sp := rfl
@[simp] theorem skip_stack : (s.skip).stack = s.stack := rfl
@[simp] theorem skip_dt : (s.skip).dt = s.dt := rfl
@[simp] theorem skip_st : (s.skip).st = s.st := rfl
@[simp] theorem skip_keys : (s.skip).keys = s.keys := rfl
@[simp] theorem skip_ir : (s.skip).ir = s.ir := rfl
@[simp] theorem skip_run : (s.skip).run = s.run := rfl
@[simp] theorem skip_mem : (s.skip).mem = s.mem := rfl
@[simp] theorem skip_fb : (s.skip).fb = s.fb := rfl
@[simp] theorem skip_env : (s.skip).env = s.env := rfl
@[simp] theorem skip_getV (j : RegIx) : (s.skip).getV j = s.getV j := rfl
@[simp] theorem skip_memByte (a : Nat) : (s.skip).memByte a = s.memByte a := rfl
@[simp] theorem skip_cell (c : Nat) : (s.skip).cell c = s.cell c := rfl

/-! ## rewind -/

@[simp] theorem rewind_v : (s.rewind).v = s.v := rfl
@[simp] theorem rewind_i : (s.rewind).i = s.i := rfl
@[simp] theorem rewind_pc : (s.rewind).pc = s.pc - 2#16 := rfl
@[simp] theorem rewind_sp : (s.rewind).sp = s.sp := rfl
@[simp] theorem rewind_stack : (s.rewind).stack = s.stack := rfl
@[simp] theorem rewind_dt : (s.rewind).dt = s.dt := rfl
@[simp] theorem rewind_st : (s.rewind).st = s.st := rfl
@[simp] theorem rewind_keys : (s.rewind).keys = s.keys := rfl
@[simp] theorem rewind_ir : (s.rewind).ir = s.ir := rfl
@[simp] theorem rewind_run : (s.rewind).run = s.run := rfl
@[simp] theorem rewind_mem : (s.rewind).mem = s.mem := rfl
@[simp] theorem rewind_fb : (s.rewind).fb = s.fb := rfl
@[simp] theorem rewind_env : (s.rewind).env = s.env := rfl
@[simp] theorem rewind_getV (j : RegIx) : (s.rewind).getV j = s.getV j := rfl
@[simp] theorem rewind_memByte (a : Nat) : (s.rewind).memByte a = s.memByte a := rfl
@[simp] theorem rewind_cell (c : Nat) : (s.rewind).cell c = s.cell c := rfl

/-! ## setDt -/

@[simp] theorem setDt_v (b : Byte) : (s.setDt b).v = s.v := rfl
@[simp] theorem setDt_i (b : Byte) : (s.setDt b).i = s.i := rfl
@[simp] theorem setDt_pc (b : Byte) : (s.setDt b).pc = s.pc := rfl
@[simp] theorem setDt_sp (b : Byte) : (s.setDt b).sp = s.sp := rfl
@[simp] theorem setDt_stack (b : Byte) : (s.setDt b).stack = s.stack := rfl
@[simp] theorem setDt_dt (b : Byte) : (s.setDt b).dt = b := rfl
@[simp] theorem setDt_st (b : Byte) : (s.setDt b).st = s.st := rfl
@[simp] theorem setDt_keys (b : Byte) : (s.setDt b).keys = s.keys := rfl
@[simp] theorem setDt_ir (b : Byte) : (s.setDt b).ir = s.ir := rfl
@[simp] theorem setDt_run (b : Byte) : (s.setDt b).run = s.run := rfl
@[simp] theorem setDt_mem (b : Byte) : (s.setDt b).mem = s.mem := rfl
@[simp] theorem setDt_fb (b : Byte) : (s.setDt b).fb = s.fb := rfl
@[simp] theorem setDt_env (b : Byte) : (s.setDt b).env = s.env := rfl
@[simp] theorem setDt_getV (b : Byte) (j : RegIx) : (s.setDt b).getV j = s.getV j := rfl
@[simp] theorem setDt_memByte (b : Byte) (a : Nat) : (s.setDt b).memByte a = s.memByte a := rfl
@[simp] theorem setDt_cell (b : Byte) (c : Nat) : (s.setDt b).cell c = s.cell c := rfl

/-! ## setSt -/

@[simp] theorem setSt_v (b : Byte) : (s.setSt b).v = s.v := rfl
@[simp] theorem setSt_i (b : Byte) : (s.setSt b).i = s.i := rfl
@[simp] theorem setSt_pc (b : Byte) : (s.setSt b).pc = s.pc := rfl
@[simp] theorem setSt_sp (b : Byte) : (s.setSt b).sp = s.sp := rfl
@[simp] theorem setSt_stack (b : Byte) : (s.setSt b).stack = s.stack := rfl
@[simp] theorem setSt_dt (b : Byte) : (s.setSt b).dt = s.dt := rfl
@[simp] theorem setSt_st (b : Byte) : (s.setSt b).st = b := rfl
@[simp] theorem setSt_keys (b : Byte) : (s.setSt b).keys = s.keys := rfl
@[simp] theorem setSt_ir (b : Byte) : (s.setSt b).ir = s.ir := rfl
@[simp] theorem setSt_run (b : Byte) : (s.setSt b).run = s.run := rfl
@[simp] theorem setSt_mem (b : Byte) : (s.setSt b).mem = s.mem := rfl
@[simp] theorem setSt_fb (b : Byte) : (s.setSt b).fb = s.fb := rfl
@[simp] theorem setSt_env (b : Byte) : (s.setSt b).env = s.env := rfl
@[simp] theorem setSt_getV (b : Byte) (j : RegIx) : (s.setSt b).getV j = s.getV j := rfl
@[simp] theorem setSt_memByte (b : Byte) (a : Nat) : (s.setSt b).memByte a = s.memByte a := rfl
@[simp] theorem setSt_cell (b : Byte) (c : Nat) : (s.setSt b).cell c = s.cell c := rfl

/-! ## setFb -/

@[simp] theorem setFb_v (m : Memory) : (s.setFb m).v = s.v := rfl
@[simp] theorem setFb_i (m : Memory) : (s.setFb m).i = s.i := rfl
@[simp] theorem setFb_pc (m : Memory) : (s.setFb m).pc = s.pc := rfl
@[simp] theorem setFb_sp (m : Memory) : (s.setFb m).sp = s.sp := rfl
@[simp] theorem setFb_stack (m : Memory) : (s.setFb m).stack = s.stack := rfl
@[simp] theorem setFb_dt (m : Memory) : (s.setFb m).dt = s.dt := rfl
@[simp] theorem setFb_st (m : Memory) : (s.setFb m).st = s.st := rfl
@[simp] theorem setFb_keys (m : Memory) : (s.setFb m).keys = s.keys := rfl
@[simp] theorem setFb_ir (m : Memory) : (s.setFb m).ir = s.ir := rfl
@[simp] theorem setFb_run (m : Memory) : (s.setFb m).run = s.run := rfl
@[simp] theorem setFb_mem (m : Memory) : (s.setFb m).mem = s.mem := rfl
@[simp] theorem setFb_fb (m : Memory) : (s.setFb m).fb = m := rfl
@[simp] theorem setFb_env (m : Memory) : (s.setFb m).env = s.env := rfl
@[simp] theorem setFb_getV (m : Memory) (j : RegIx) : (s.setFb m).getV j = s.getV j := rfl
@[simp] theorem setFb_memByte (m : Memory) (a : Nat) : (s.setFb m).memByte a = s.memByte a := rfl

/-! ## setMem -/

@[simp] theorem setMem_v (m : Memory) : (s.setMem m).v = s.v := rfl
@[simp] theorem setMem_i (m : Memory) : (s.setMem m).i = s.i := rfl
@[simp] theorem setMem_pc (m : Memory) : (s.setMem m).pc = s.pc := rfl
@[simp] theorem setMem_sp (m : Memory) : (s.setMem m).sp = s.sp := rfl
@[simp] theorem setMem_stack (m : Memory) : (s.setMem m).stack = s.stack := rfl
@[simp] theorem setMem_dt (m : Memory) : (s.setMem m).dt = s.dt := rfl
@[simp] theorem setMem_st (m : Memory) : (s.setMem m).st = s.st := rfl
@[simp] theorem setMem_keys (m : Memory) : (s.setMem m).keys = s.keys := rfl
@[simp] theorem setMem_ir (m : Memory) : (s.setMem m).ir = s.ir := rfl
@[simp] theorem setMem_run (m : Memory) : (s.setMem m).run = s.run := rfl
@[simp] theorem setMem_mem (m : Memory) : (s.setMem m).mem = m := rfl
@[simp] theorem setMem_fb (m : Memory) : (s.setMem m).fb = s.fb := rfl
@[simp] theorem setMem_env (m : Memory) : (s.setMem m).env = s.env := rfl
@[simp] theorem setMem_getV (m : Memory) (j : RegIx) : (s.setMem m).getV j = s.getV j := rfl
@[simp] theorem setMem_cell (m : Memory) (c : Nat) : (s.setMem m).cell c = s.cell c := rfl

/-! ## endCycle -/

@[simp] theorem endCycle_v : (s.endCycle).v = s.v := rfl
@[simp] theorem endCycle_i : (s.endCycle).i = s.i := rfl
@[simp] theorem endCycle_pc : (s.endCycle).pc = s.pc := rfl
@[simp] theorem endCycle_sp : (s.endCycle).sp = s.sp := rfl
@[simp] theorem endCycle_stack : (s.endCycle).stack = s.stack := rfl
@[simp] theorem endCycle_dt : (s.endCycle).dt = tickTimer s.dt := rfl
@[simp] theorem endCycle_st : (s.endCycle).st = tickTimer s.st := rfl
@[simp] theorem endCycle_keys : (s.endCycle).keys = s.env.input.keys := rfl
@[simp] theorem endCycle_ir : (s.endCycle).ir = s.ir := rfl
@[simp] theorem endCycle_run : (s.endCycle).run = s.run := rfl
@[simp] theorem endCycle_mem : (s.endCycle).mem = s.mem := rfl
@[simp] theorem endCycle_fb : (s.endCycle).fb = s.fb := rfl
@[simp] theorem endCycle_env : (s.endCycle).env = s.env.advance := rfl
@[simp] theorem endCycle_getV (j : RegIx) : (s.endCycle).getV j = s.getV j := rfl
@[simp] theorem endCycle_memByte (a : Nat) : (s.endCycle).memByte a = s.memByte a := rfl
@[simp] theorem endCycle_cell (c : Nat) : (s.endCycle).cell c = s.cell c := rfl

/-! ## The model's own fields: the next inputs -/

@[simp] theorem advance_glyphs (e : Env) : e.advance.glyphs = e.glyphs := rfl
@[simp] theorem advance_inputs (e : Env) : e.advance.inputs = e.inputs.tail := rfl
@[simp] theorem advance_cycles (e : Env) : e.advance.cycles = e.cycles + 1 := rfl
@[simp] theorem withInput_input (keys : BitVec 16) (rnd : Byte) :
    (s.withInput keys rnd).env.input = { keys := keys, rnd := rnd } := rfl
@[simp] theorem withInput_run (keys : BitVec 16) (rnd : Byte) : (s.withInput keys rnd).run = s.run := rfl

/-! ## The ports (60_exceptions.md R247, R248) -/

theorem diagnostics_memory : s.diagnostics.memory = (List.range Config.memSize).map s.memByte := by
  simp only [State.diagnostics]

theorem frameBufferPort_get {c : Nat} (h : c < Config.fbSize) : s.frameBufferPort[c]? = some (s.cell c) := by
  rw [State.frameBufferPort, List.getElem?_map, List.getElem?_range h]; rfl

theorem diagnostics_memory_get {a : Nat} (h : a < Config.memSize) : s.diagnostics.memory[a]? = some (s.memByte a) := by
  rw [diagnostics_memory, List.getElem?_map, List.getElem?_range h]; rfl

end Sys2Proof.Machine
end

