-- ==== Sys2Proof/Laws/Ops.lean ====
section
/-! SUPPORT. One lemma per shared operation, saying once everything it can do: registers, main memory, call stack, fetch, and
the consecutive reads and writes of Dxyn, Fx33, Fx55 and Fx65. -/

namespace Sys2Proof.Machine

variable {s t : State}

/-! ## General registers -/

theorem getV_setV (s : State) (x j : RegIx) (b : Byte) : (s.setV x b).getV j = if j = x then b else s.getV j := by
  simp only [State.getV, State.setV, Vector.getElem_set]
  by_cases h : j = x
  · simp [h]
  · rw [if_neg, if_neg h]
    exact fun e => h (BitVec.eq_of_toNat_eq e.symm)

@[simp] theorem getV_setV_same (s : State) (x : RegIx) (b : Byte) : (s.setV x b).getV x = b := by simp [getV_setV]

theorem getV_setV_other (s : State) {x j : RegIx} (b : Byte) (h : j ≠ x) : (s.setV x b).getV j = s.getV j := by
  simp [getV_setV, h]

/-- Two states with the same registers by number have the same register file. -/
theorem v_eq_of_getV (h : ∀ j, t.getV j = s.getV j) : t.v = s.v := by
  apply Vector.ext
  intro k hk
  simpa [State.getV, Nat.mod_eq_of_lt hk] using h (BitVec.ofNat 4 k)

/-- The registers `setVs` writes are those from `k` on, as many as there are bytes. -/
theorem getV_setVs (bytes : List Byte) (s : State) (k : Nat) (j : RegIx) :
    (s.setVs k bytes).getV j =
      if h : k ≤ j.toNat ∧ j.toNat - k < bytes.length then bytes[j.toNat - k]'h.2 else s.getV j := by
  induction bytes generalizing s k with
  | nil => simp [State.setVs]
  | cons b bs ih =>
    rw [State.setVs, ih]
    have hj := j.isLt
    by_cases hk : k + 1 ≤ j.toNat ∧ j.toNat - (k + 1) < bs.length
    · have h2 : k ≤ j.toNat ∧ j.toNat - k < (b :: bs).length := ⟨by omega, by simp only [List.length_cons]; omega⟩
      rw [dif_pos hk, dif_pos h2]
      simp only [show j.toNat - k = (j.toNat - (k + 1)) + 1 by omega, List.getElem_cons_succ]
    · rw [dif_neg hk]
      by_cases h0 : j.toNat = k
      · rw [dif_pos ⟨by omega, by simp only [List.length_cons]; omega⟩]
        simp [State.getV, ← h0]
      · rw [dif_neg (by simp only [List.length_cons]; omega)]
        simp only [State.getV, Vector.getElem_setIfInBounds]
        rw [if_neg (by omega)]

/-- `setVs` writes registers only. -/
theorem setVs_frame (bytes : List Byte) (s : State) (k : Nat) : s.setVs k bytes = { s with v := (s.setVs k bytes).v } := by
  induction bytes generalizing s k with
  | nil => rfl
  | cons b bs ih => rw [State.setVs, ih]

@[simp] theorem setVs_i (bytes : List Byte) (s : State) (k : Nat) : (s.setVs k bytes).i = s.i := by rw [setVs_frame]
@[simp] theorem setVs_pc (bytes : List Byte) (s : State) (k : Nat) : (s.setVs k bytes).pc = s.pc := by rw [setVs_frame]
@[simp] theorem setVs_sp (bytes : List Byte) (s : State) (k : Nat) : (s.setVs k bytes).sp = s.sp := by rw [setVs_frame]
@[simp] theorem setVs_stack (bytes : List Byte) (s : State) (k : Nat) : (s.setVs k bytes).stack = s.stack := by rw [setVs_frame]
@[simp] theorem setVs_dt (bytes : List Byte) (s : State) (k : Nat) : (s.setVs k bytes).dt = s.dt := by rw [setVs_frame]
@[simp] theorem setVs_st (bytes : List Byte) (s : State) (k : Nat) : (s.setVs k bytes).st = s.st := by rw [setVs_frame]
@[simp] theorem setVs_keys (bytes : List Byte) (s : State) (k : Nat) : (s.setVs k bytes).keys = s.keys := by rw [setVs_frame]
@[simp] theorem setVs_ir (bytes : List Byte) (s : State) (k : Nat) : (s.setVs k bytes).ir = s.ir := by rw [setVs_frame]
@[simp] theorem setVs_run (bytes : List Byte) (s : State) (k : Nat) : (s.setVs k bytes).run = s.run := by rw [setVs_frame]
@[simp] theorem setVs_mem (bytes : List Byte) (s : State) (k : Nat) : (s.setVs k bytes).mem = s.mem := by rw [setVs_frame]
@[simp] theorem setVs_fb (bytes : List Byte) (s : State) (k : Nat) : (s.setVs k bytes).fb = s.fb := by rw [setVs_frame]
@[simp] theorem setVs_env (bytes : List Byte) (s : State) (k : Nat) : (s.setVs k bytes).env = s.env := by rw [setVs_frame]
@[simp] theorem setVs_memByte (bytes : List Byte) (s : State) (k a : Nat) : (s.setVs k bytes).memByte a = s.memByte a := by
  simp [State.memByte]
@[simp] theorem setVs_cell (bytes : List Byte) (s : State) (k c : Nat) : (s.setVs k bytes).cell c = s.cell c := by
  simp [State.cell]

/-! ## Consecutive reads of main memory -/

/-- Every address in range: the bytes, in order. -/
theorem readBytes_ok (n : Nat) {a : Nat} (h : a + n ≤ Config.memSize ∨ n = 0) :
    s.readBytes a n = .ok ((List.range n).map fun k => s.memByte (a + k)) := by
  induction n generalizing a with
  | zero => rfl
  | succ n ih =>
    rw [State.readBytes, State.memRead, if_pos (by omega)]
    simp only [ih (a := a + 1) (by omega), List.range_succ_eq_map, List.map_cons, List.map_map]
    simp [Function.comp_def, Nat.add_assoc, Nat.add_comm 1]

/-- Some address out of range: the first one is reported. -/
theorem readBytes_error (n : Nat) {a : Nat} (h : a + n > Config.memSize) (hn : 0 < n) :
    s.readBytes a n = .error (max a Config.memSize) := by
  induction n generalizing a with
  | zero => omega
  | succ n ih =>
    rw [State.readBytes, State.memRead]
    by_cases ha : a < Config.memSize
    · rw [if_pos ha]
      simp only [ih (a := a + 1) (by omega) (by omega)]
      congr 1; omega
    · rw [if_neg ha]
      simp only
      congr 1; omega

/-! ## Consecutive writes of main memory -/

/-- Every address in range: main memory is written, nothing else changes. -/
theorem writeBytes_ok (bytes : List Byte) {a : Nat} (h : a + bytes.length ≤ Config.memSize) :
    s.writeBytes a bytes = .ok (s.setMem (s.mem.writeList (resetByte s.env.glyphs) a bytes)) := by
  induction bytes generalizing s a with
  | nil => rfl
  | cons x xs ih =>
    simp only [List.length_cons] at h
    rw [State.writeBytes, State.memWrite, if_pos (by omega)]
    simp only
    rw [ih (by omega)]
    rfl

/-- Some address out of range: the first one is reported. -/
theorem writeBytes_error (bytes : List Byte) {a : Nat} (h : a + bytes.length > Config.memSize) (hn : bytes ≠ []) :
    s.writeBytes a bytes = .error (max a Config.memSize) := by
  induction bytes generalizing s a with
  | nil => exact absurd rfl hn
  | cons x xs ih =>
    simp only [List.length_cons] at h
    rw [State.writeBytes, State.memWrite]
    by_cases ha : a < Config.memSize
    · rw [if_pos ha]
      simp only
      rw [ih (by omega) (by rintro rfl; simp at h; omega)]
      congr 1; omega
    · rw [if_neg ha]
      simp only
      congr 1; omega

/-! ## Call stack -/

theorem push_cases (s : State) (a : Word) :
    (s.sp.val = 16 ∧ s.push a = none) ∨
    (∃ h : s.sp.val < 16, s.push a =
      some { s with stack := s.stack.set s.sp.val a h, sp := ⟨s.sp.val + 1, by omega⟩ }) := by
  by_cases h : s.sp.val < 16
  · exact .inr ⟨h, by simp [State.push, h]⟩
  · exact .inl ⟨by omega, by simp [State.push, h]⟩

theorem pop_cases (s : State) :
    (s.sp.val = 0 ∧ s.pop = none) ∨
    (∃ h : 0 < s.sp.val, s.pop =
      some ({ s with sp := ⟨s.sp.val - 1, by omega⟩ }, s.stack[s.sp.val - 1]'(by omega))) := by
  by_cases h : 0 < s.sp.val
  · exact .inr ⟨h, by simp [State.pop, h]⟩
  · exact .inl ⟨by omega, by simp [State.pop, h]⟩

/-! ## Fetch -/

/-- The fetch reads PC, then PC + 1; it fails at the first of the two that is out of range, and else loads IR and advances
PC, changing nothing else. -/
theorem fetch_cases (s : State) :
    (Config.memSize ≤ s.pc.toNat ∧ s.fetch = .error s.pc.toNat) ∨
    (s.pc.toNat + 1 = Config.memSize ∧ s.fetch = .error Config.memSize) ∨
    (s.pc.toNat + 1 < Config.memSize ∧ s.fetch = .ok { s with
      ir := composeWord (s.memByte s.pc.toNat) (s.memByte (s.pc.toNat + 1)), pc := s.pc + 2#16 }) := by
  unfold State.fetch State.memRead
  by_cases h0 : s.pc.toNat < Config.memSize
  · by_cases h1 : s.pc.toNat + 1 < Config.memSize
    · exact .inr (.inr ⟨h1, by rw [if_pos h0]; simp only; rw [if_pos h1]⟩)
    · have he : s.pc.toNat + 1 = Config.memSize := by omega
      exact .inr (.inl ⟨he, by rw [if_pos h0]; simp only; rw [if_neg h1, he]⟩)
  · exact .inl ⟨by omega, by rw [if_neg h0]⟩

/-! ## The step -/

/-- Everything a step that answers a next state has done (30_encoding.md R88). -/
theorem step_next (h : step s = .next t) :
    s.run = .running ∧ ∃ f i u, s.fetch = .ok f ∧ decodeWord f.ir = some i ∧ exec i f = .next u ∧ t = u.endCycle := by
  unfold step at h
  split at h
  · cases h
  · refine ⟨‹_›, ?_⟩
    split at h
    · cases h
    · rename_i f hf
      unfold runFetched at h
      split at h
      · cases h
      · rename_i i hi
        split at h
        · rename_i u hu
          injection h with h
          exact ⟨f, i, u, hf, hi, hu, h.symm⟩
        · cases h
        · cases h

theorem tickTimer_toNat (b : Byte) : (tickTimer b).toNat = b.toNat - 1 := by
  unfold tickTimer
  split
  · simp_all
  · rename_i h
    have h0 : b.toNat ≠ 0 := fun e => h (BitVec.eq_of_toNat_eq e)
    rw [BitVec.toNat_sub]
    have := b.isLt
    simp only [BitVec.toNat_ofNat]
    omega

end Sys2Proof.Machine
end

