-- ==== Sys2Proof/Laws/Sprite.lean ====
section
/-! SUPPORT. What drawing does (42_display.md R171): which cells a sprite names, that it names none twice, and what the frame
buffer and the collision flag are afterwards. -/

namespace Sys2Proof.Machine

/-! ## The cells of a sprite -/

theorem spriteCell_lt (px py row col : Nat) : spriteCell px py row col < Config.fbSize := by
  simp only [spriteCell, Config.fbSize, Config.fbHeight, Config.fbWidth]
  omega

/-- Within 32 consecutive rows and 64 consecutive columns the wrapped cells are all different. -/
theorem spriteCell_injective {px py row row' col col' : Nat} (hr : row < row' + 32) (hr' : row' < row + 32)
    (hc : col < 8) (hc' : col' < 8) (h : spriteCell px py row col = spriteCell px py row' col') :
    row = row' ∧ col = col' := by
  simp only [spriteCell, Config.fbHeight, Config.fbWidth] at h
  omega

theorem mem_rowCells {px py row : Nat} {b : Byte} {c : Nat} :
    c ∈ rowCells px py row b ↔ ∃ col < 8, spriteBit b col = true ∧ c = spriteCell px py row col := by
  simp only [rowCells, List.mem_map, List.mem_filter, List.mem_range]
  exact ⟨fun ⟨col, ⟨h1, h2⟩, h3⟩ => ⟨col, h1, h2, h3.symm⟩, fun ⟨col, h1, h2, h3⟩ => ⟨col, ⟨h1, h2⟩, h3.symm⟩⟩

theorem mem_spriteCells {px py row : Nat} {bs : List Byte} {c : Nat} :
    c ∈ spriteCells px py row bs ↔
      ∃ k, ∃ h : k < bs.length, ∃ col < 8, spriteBit bs[k] col = true ∧ c = spriteCell px py (row + k) col := by
  induction bs generalizing row with
  | nil => simp [spriteCells]
  | cons b bs ih =>
    rw [spriteCells, List.mem_append, mem_rowCells, ih]
    constructor
    · rintro (h | ⟨k, hk, h⟩)
      · exact ⟨0, by simp, by simpa using h⟩
      · exact ⟨k + 1, by simpa using hk, by simpa [Nat.add_assoc, Nat.add_comm 1] using h⟩
    · rintro ⟨k, hk, h⟩
      cases k with
      | zero => exact .inl (by simpa using h)
      | succ k => exact .inr ⟨k, by simpa using hk, by simpa [Nat.add_assoc, Nat.add_comm 1] using h⟩

theorem nodup_rowCells (px py row : Nat) (b : Byte) : (rowCells px py row b).Nodup := by
  refine List.Nodup.map_on ?_ (List.nodup_range.filter _)
  intro c hc c' hc' h
  simp only [List.mem_filter, List.mem_range] at hc hc'
  exact (spriteCell_injective (by omega) (by omega) hc.1 hc'.1 h).2

theorem nodup_rows (px py row : Nat) {bs : List Byte} (h : bs.length ≤ 32) : (spriteCells px py row bs).Nodup := by
  induction bs generalizing row with
  | nil => simp [spriteCells]
  | cons b bs ih =>
    simp only [List.length_cons] at h
    rw [spriteCells, List.nodup_append]
    refine ⟨nodup_rowCells _ _ _ _, ih _ (by omega), ?_⟩
    rintro c hc d hd rfl
    obtain ⟨col, h1, -, h2⟩ := mem_rowCells.1 hc
    obtain ⟨k, hk, col', h3, -, h4⟩ := mem_spriteCells.1 hd
    have := (spriteCell_injective (by omega) (by omega) h1 h3 (h2.symm.trans h4)).1
    omega

/-! ## Drawing -/

theorem drawCells_nil (fb : Memory) : drawCells fb [] = (fb, false) := rfl

/-- Drawing one more cell after the others. -/
theorem foldl_xorPixel_read {fb : Memory} (hfb : Memory.wf resetCell Config.fbSize fb = true) {cells : List Nat}
    (hlt : ∀ c ∈ cells, c < Config.fbSize) (hnd : cells.Nodup) (hit : Bool) :
    Memory.wf resetCell Config.fbSize (cells.foldl xorPixel (fb, hit)).1 = true ∧
    (∀ c, (cells.foldl xorPixel (fb, hit)).1.read resetCell c =
      if c ∈ cells then fb.read resetCell c ^^^ 0xFF#8 else fb.read resetCell c) ∧
    (cells.foldl xorPixel (fb, hit)).2 = (hit || cells.any fun c => fb.read resetCell c == 0xFF#8) := by
  induction cells generalizing fb hit with
  | nil => simp [hfb]
  | cons a cells ih =>
    obtain ⟨ha, hnd⟩ := List.nodup_cons.1 hnd
    have hwf := Memory.wf_write hfb (hlt a (by simp)) (fb.read resetCell a ^^^ 0xFF#8)
    obtain ⟨h1, h2, h3⟩ := ih hwf (fun c hc => hlt c (by simp [hc])) hnd (hit || fb.read resetCell a == 0xFF#8)
    refine ⟨h1, fun c => ?_, ?_⟩
    · rw [List.foldl_cons]
      refine (h2 c).trans ?_
      rw [Memory.read_write hfb]
      by_cases hca : c = a
      · subst hca; simp [ha]
      · simp [hca]
    · rw [List.foldl_cons]
      refine h3.trans ?_
      rw [List.any_cons, Bool.or_assoc]
      congr 2
      refine Bool.eq_iff_iff.2 ?_
      simp only [List.any_eq_true]
      refine exists_congr fun c => and_congr_right fun hc => ?_
      rw [Memory.read_write_other fb _ (by rintro rfl; exact ha hc)]

/-- What drawing a sprite leaves: every named cell flipped, every other one as it was, and a collision exactly when a named
cell was on. -/
theorem drawCells_spec {fb : Memory} (hfb : Memory.wf resetCell Config.fbSize fb = true) (px py : Nat) {rows : List Byte}
    (hn : rows.length ≤ 32) :
    (∀ c, (drawCells fb (spriteCells px py 0 rows)).1.read resetCell c =
      if c ∈ spriteCells px py 0 rows then fb.read resetCell c ^^^ 0xFF#8 else fb.read resetCell c) ∧
    (drawCells fb (spriteCells px py 0 rows)).2 =
      (spriteCells px py 0 rows).any fun c => fb.read resetCell c == 0xFF#8 := by
  have hlt : ∀ c ∈ spriteCells px py 0 rows, c < Config.fbSize := by
    intro c hc
    obtain ⟨k, -, col, -, -, rfl⟩ := mem_spriteCells.1 hc
    exact spriteCell_lt _ _ _ _
  obtain ⟨-, h2, h3⟩ := foldl_xorPixel_read hfb hlt (nodup_rows px py 0 hn) false
  exact ⟨h2, by simpa [drawCells] using h3⟩

/-! ## The frame buffer stays a bitmap (10_state.md R33) -/

/-- In a good frame buffer every cell is off or on. -/
theorem cell_of_allOn {fb : Memory} (h : fb.all (fun c => c.2 == 0xFF#8) = true) (c : Nat) :
    fb.read resetCell c = 0x00#8 ∨ fb.read resetCell c = 0xFF#8 := by
  induction fb with
  | nil => exact .inl rfl
  | cons e rest ih =>
    obtain ⟨k, b⟩ := e
    simp only [List.all_cons, Bool.and_eq_true, beq_iff_eq] at h
    rw [Memory.read_cons]
    split
    · exact .inr h.1
    · exact ih h.2

/-- Flipping one cell keeps a good frame buffer good. -/
theorem xorPixel_keeps {acc : Memory × Bool} {c : Nat} (hc : c < Config.fbSize)
    (hwf : Memory.wf resetCell Config.fbSize acc.1 = true) (hon : acc.1.all (fun c => c.2 == 0xFF#8) = true) :
    Memory.wf resetCell Config.fbSize (xorPixel acc c).1 = true ∧
    (xorPixel acc c).1.all (fun c => c.2 == 0xFF#8) = true := by
  refine ⟨Memory.wf_write hwf hc _, ?_⟩
  rw [List.all_eq_true] at hon ⊢
  intro e he
  rcases Memory.mem_write he with ⟨rfl, hne⟩ | he
  · rcases cell_of_allOn (List.all_eq_true.2 hon) c with h0 | h0 <;> simp_all [resetCell]
  · exact hon e he

/-- Drawing keeps a good frame buffer good. -/
theorem drawCells_keeps {fb : Memory} {cells : List Nat} (hlt : ∀ c ∈ cells, c < Config.fbSize)
    (hwf : Memory.wf resetCell Config.fbSize fb = true) (hon : fb.all (fun c => c.2 == 0xFF#8) = true) :
    Memory.wf resetCell Config.fbSize (drawCells fb cells).1 = true ∧
    (drawCells fb cells).1.all (fun c => c.2 == 0xFF#8) = true := by
  unfold drawCells
  generalize false = hit
  induction cells generalizing fb hit with
  | nil => exact ⟨hwf, hon⟩
  | cons a cells ih =>
    obtain ⟨h1, h2⟩ := xorPixel_keeps (acc := (fb, hit)) (hlt a (by simp)) hwf hon
    exact ih (fun c hc => hlt c (by simp [hc])) h1 h2 _

end Sys2Proof.Machine
end

