-- ==== Sys2Proof/Laws/Exec.lean ====
section
/-! SUPPORT. Everything an instruction with more than one outcome can do: one lemma per meaning that branches. The other
meanings are one update each and unfold to it. -/

namespace Sys2Proof.Machine

variable {s : State}

/-- 2nnn (R122). -/
theorem execCall_cases (nnn : Addr12) (s : State) :
    (s.sp.val = 16 ∧ execCall nnn s = .fault (.stackOverflow s.ir (s.pc - 2#16))) ∨
    (∃ h : s.sp.val < 16, execCall nnn s = .next { s with
      stack := s.stack.set s.sp.val s.pc h, sp := ⟨s.sp.val + 1, by omega⟩, pc := zextAddr nnn }) := by
  rcases push_cases s s.pc with ⟨h, e⟩ | ⟨h, e⟩
  · exact .inl ⟨h, by simp [execCall, e, raise, State.fetchAddr]⟩
  · exact .inr ⟨h, by simp [execCall, e, State.setPc]⟩

/-- 00EE (R120). -/
theorem execRet_cases (s : State) :
    (s.sp.val = 0 ∧ execRet s = .fault (.stackUnderflow s.ir (s.pc - 2#16))) ∨
    (∃ h : 0 < s.sp.val, execRet s = .next { s with
      sp := ⟨s.sp.val - 1, by omega⟩, pc := s.stack[s.sp.val - 1]'(by omega) }) := by
  rcases pop_cases s with ⟨h, e⟩ | ⟨h, e⟩
  · exact .inl ⟨h, by simp [execRet, e, raise, State.fetchAddr]⟩
  · exact .inr ⟨h, by simp [execRet, e, State.setPc]⟩

/-- The rows of the sprite at I. -/
def State.spriteRows (s : State) (n : Nat) : List Byte := (List.range n).map fun k => s.memByte (s.i.toNat + k)

/-- The state a drawn sprite leaves (R171). -/
def State.drawn (s : State) (x y : RegIx) (n : Nat) : State :=
  let d := drawCells s.fb
    (spriteCells ((s.getV x).toNat % Config.fbWidth) ((s.getV y).toNat % Config.fbHeight) 0 (s.spriteRows n))
  (s.setFb d.1).setV regF (flagByte d.2)

/-- Dxyn (R171). -/
theorem execDrw_cases (x y : RegIx) (n : Nat) (s : State) :
    ((s.i.toNat + n ≤ Config.memSize ∨ n = 0) ∧ execDrw x y n s = .next (s.drawn x y n)) ∨
    (s.i.toNat + n > Config.memSize ∧ 0 < n ∧
      execDrw x y n s = .fault (.memoryRange (max s.i.toNat Config.memSize) (some s.ir) (s.pc - 2#16))) := by
  by_cases h : s.i.toNat + n ≤ Config.memSize ∨ n = 0
  · exact .inl ⟨h, by rw [execDrw, readBytes_ok n h]; rfl⟩
  · refine .inr ⟨by omega, by omega, ?_⟩
    rw [execDrw, readBytes_error n (by omega) (by omega)]
    rfl

/-- Fx33 and Fx55 (R212, R213). -/
theorem storeAtI_cases (bytes : List Byte) (hb : bytes ≠ []) (s : State) :
    (s.i.toNat + bytes.length ≤ Config.memSize ∧ storeAtI bytes s =
      .next (s.setMem (s.mem.writeList (resetByte s.env.glyphs) s.i.toNat bytes))) ∨
    (s.i.toNat + bytes.length > Config.memSize ∧ storeAtI bytes s =
      .fault (.memoryRange (max s.i.toNat Config.memSize) (some s.ir) (s.pc - 2#16))) := by
  by_cases h : s.i.toNat + bytes.length ≤ Config.memSize
  · exact .inl ⟨h, by rw [storeAtI, writeBytes_ok bytes h]⟩
  · exact .inr ⟨by omega, by rw [storeAtI, writeBytes_error bytes (by omega) hb]; rfl⟩

@[simp] theorem decimalDigits_length (b : Byte) : (decimalDigits b).length = 3 := rfl

@[simp] theorem regBlock_length (s : State) (x : RegIx) : (s.regBlock x).length = x.toNat + 1 := by
  have := x.isLt
  simp [State.regBlock]; omega

theorem regBlock_getElem (s : State) (x j : RegIx) (h : j.toNat < (s.regBlock x).length) :
    (s.regBlock x)[j.toNat] = s.getV j := by
  simp [State.regBlock, State.getV]

/-- Fx65 (R214). -/
theorem execLdVxMem_cases (x : RegIx) (s : State) :
    (s.i.toNat + (x.toNat + 1) ≤ Config.memSize ∧ execLdVxMem x s =
      .next (s.setVs 0 ((List.range (x.toNat + 1)).map fun k => s.memByte (s.i.toNat + k)))) ∨
    (s.i.toNat + (x.toNat + 1) > Config.memSize ∧ execLdVxMem x s =
      .fault (.memoryRange (max s.i.toNat Config.memSize) (some s.ir) (s.pc - 2#16))) := by
  by_cases h : s.i.toNat + (x.toNat + 1) ≤ Config.memSize
  · exact .inl ⟨h, by rw [execLdVxMem, readBytes_ok _ (.inl h)]⟩
  · exact .inr ⟨by omega, by rw [execLdVxMem, readBytes_error _ (by omega) (by omega)]; rfl⟩

/-- Ex9E and ExA1 (R190, R191). -/
theorem skipIfKey_cases (want : Bool) (x : RegIx) (s : State) :
    ((s.getV x).toNat > 0x0F ∧ skipIfKey want x s = .fault (.keyIndex (s.getV x) s.ir (s.pc - 2#16))) ∨
    ((s.getV x).toNat ≤ 0x0F ∧
      skipIfKey want x s = skipIf (s.keys.getLsbD (s.getV x).toNat == want) s) := by
  unfold skipIfKey
  split
  · exact .inl ⟨‹_›, rfl⟩
  · exact .inr ⟨by omega, rfl⟩

/-! ## The choice of Fx0A (R192) -/

theorem mem_heldKeys {keys : BitVec 16} {k : Nat} : k ∈ heldKeys keys ↔ k < 16 ∧ keys.getLsbD k = true := by
  simp [heldKeys]

/-- Every draw picks a member. -/
theorem pick_mem (first : Nat) (rest : List Nat) (draw : Nat) : pick first rest draw ∈ first :: rest := by
  induction rest generalizing first draw with
  | nil => simp [pick]
  | cons next rest ih =>
    cases draw with
    | zero => simp [pick]
    | succ d => exact List.mem_cons_of_mem _ (ih next d)

/-- Every member is picked by some draw. -/
theorem exists_pick {first k : Nat} {rest : List Nat} (h : k ∈ first :: rest) : ∃ draw, pick first rest draw = k := by
  induction rest generalizing first with
  | nil => exact ⟨0, by simpa [pick, eq_comm] using h⟩
  | cons next rest ih =>
    rcases List.mem_cons.1 h with rfl | h
    · exact ⟨0, rfl⟩
    · obtain ⟨d, hd⟩ := ih h
      exact ⟨d + 1, hd⟩

theorem heldKeys_eq_nil {keys : BitVec 16} : heldKeys keys = [] ↔ keys = 0#16 := by
  constructor
  · intro h
    apply BitVec.eq_of_getLsbD_eq
    intro k hk
    have : k ∉ heldKeys keys := by simp [h]
    simpa [mem_heldKeys, hk] using this
  · rintro rfl; decide

/-- Fx0A: no key held, or some held key is taken. -/
theorem execLdVxK_cases (x : RegIx) (s : State) :
    (s.keys = 0#16 ∧ execLdVxK x s = .next s.rewind) ∨
    (s.keys ≠ 0#16 ∧ ∃ k, k < 16 ∧ s.keys.getLsbD k = true ∧ execLdVxK x s = .next (s.setV x (BitVec.ofNat 8 k))) := by
  unfold execLdVxK chooseKey
  split
  · rename_i h
    split at h
    · exact .inl ⟨heldKeys_eq_nil.1 ‹_›, rfl⟩
    · cases h
  · rename_i k h
    split at h
    · cases h
    · rename_i first rest hl
      injection h with h
      have hk : k ∈ heldKeys s.keys := by rw [hl, ← h]; exact pick_mem _ _ _
      refine .inr ⟨fun e => ?_, k, (mem_heldKeys.1 hk).1, (mem_heldKeys.1 hk).2, rfl⟩
      rw [heldKeys_eq_nil.2 e] at hl
      cases hl

/-! ## All instructions -/

/-- A skip condition either skips or changes nothing (30_encoding.md R90). -/
theorem skipIf_next {c : Bool} {s t : State} (h : skipIf c s = .next t) : t = s ∨ t = s.skip := by
  unfold skipIf at h; injection h with h; cases c <;> simp_all

/-- The shape of the next state of each instruction: the one update it makes, whatever the values (R20 to R32, R51). -/
def Effect (s t : State) : Instr → Prop
  | .cls => t = s.setFb []
  | .ret => ∃ h : 0 < s.sp.val,
    t = { s with sp := ⟨s.sp.val - 1, by omega⟩, pc := s.stack[s.sp.val - 1]'(by omega) }
  | .jp nnn => t = s.setPc (zextAddr nnn)
  | .call nnn => ∃ h : s.sp.val < 16, t = { s with
      stack := s.stack.set s.sp.val s.pc h, sp := ⟨s.sp.val + 1, by omega⟩, pc := zextAddr nnn }
  | .seImm _ _ | .sneImm _ _ | .seReg _ _ | .sneReg _ _ | .skp _ | .sknp _ => t = s ∨ t = s.skip
  | .ldImm x _ | .addImm x _ | .ldReg x _ | .orReg x _ | .andReg x _ | .xorReg x _ | .rnd x _ | .ldVxDt x =>
    ∃ b, t = s.setV x b
  | .addReg x _ | .sub x _ | .shr x _ | .subn x _ | .shl x _ => ∃ f b, t = s.setFlagAndV f x b
  | .ldI _ | .addIVx _ | .ldFVx _ => ∃ a, t = s.setI a
  | .jpV0 nnn => t = s.setPc (zextByte (s.getV reg0) + zextAddr nnn)
  | .drw x y n => t = s.drawn x y n
  | .ldVxK x => t = s.rewind ∨ ∃ b, t = s.setV x b
  | .ldDtVx x => t = s.setDt (s.getV x)
  | .ldStVx x => t = s.setSt (s.getV x)
  | .ldBVx _ | .ldMemVx _ => ∃ bs, s.i.toNat + bs.length ≤ Config.memSize ∧
    t = s.setMem (s.mem.writeList (resetByte s.env.glyphs) s.i.toNat bs)
  | .ldVxMem x => t = s.setVs 0 ((List.range (x.toNat + 1)).map fun k => s.memByte (s.i.toNat + k))

/-- Everything an instruction that answers a next state can have done. -/
theorem exec_effect {i : Instr} {s t : State} (h : exec i s = .next t) : Effect s t i := by
  cases i <;> simp only [exec] at h
  case ret =>
    rcases execRet_cases s with ⟨-, e⟩ | ⟨h', e⟩ <;> rw [e] at h <;> cases h
    exact ⟨h', rfl⟩
  case call nnn =>
    rcases execCall_cases nnn s with ⟨-, e⟩ | ⟨h', e⟩ <;> rw [e] at h <;> cases h
    exact ⟨h', rfl⟩
  case drw x y n => rcases execDrw_cases x y n s with ⟨-, e⟩ | ⟨-, -, e⟩ <;> rw [e] at h <;> cases h; rfl
  case ldBVx x =>
    rcases storeAtI_cases (decimalDigits (s.getV x)) (by simp [decimalDigits]) s with ⟨h', e⟩ | ⟨-, e⟩ <;>
      rw [execLdBVx, e] at h <;> cases h
    exact ⟨_, h', rfl⟩
  case ldMemVx x =>
    have hne : s.regBlock x ≠ [] := by
      intro h; have := regBlock_length s x; simp [h] at this
    rcases storeAtI_cases (s.regBlock x) hne s with ⟨h', e⟩ | ⟨-, e⟩ <;> rw [execLdMemVx, e] at h <;> cases h
    exact ⟨_, h', rfl⟩
  case ldVxMem x =>
    rcases execLdVxMem_cases x s with ⟨-, e⟩ | ⟨-, e⟩ <;> rw [e] at h <;> cases h
    rfl
  case skp x =>
    rcases skipIfKey_cases true x s with ⟨-, e⟩ | ⟨-, e⟩ <;> rw [execSkp, e] at h
    cases h
    exact skipIf_next h
  case sknp x =>
    rcases skipIfKey_cases false x s with ⟨-, e⟩ | ⟨-, e⟩ <;> rw [execSknp, e] at h
    cases h
    exact skipIf_next h
  case ldVxK x =>
    rcases execLdVxK_cases x s with ⟨-, e⟩ | ⟨-, k, -, -, e⟩ <;> rw [e] at h <;> cases h
    · exact .inl rfl
    · exact .inr ⟨_, rfl⟩
  case seImm => exact skipIf_next h
  case sneImm => exact skipIf_next h
  case seReg => exact skipIf_next h
  case sneReg => exact skipIf_next h
  all_goals cases h
  all_goals first | rfl | exact ⟨_, rfl⟩ | exact ⟨_, _, rfl⟩

end Sys2Proof.Machine
end

