-- ==== Sys2Proof/Laws/PerInstr.lean ====
section
/-! SUPPORT. For each instruction: its encoding matches the mask and value of its own row of the opcode map (30_encoding.md
R91). -/

namespace Sys2Proof

theorem and_ones4 (f : BitVec 4) : f &&& 15#4 = f := BitVec.and_allOnes

theorem and_ones8 (k : Byte) : k &&& 255#8 = k := BitVec.and_allOnes

/-- Mask 0xF000 keeps the family. -/
theorem wordNnn_mask (f : BitVec 4) (a : Addr12) : wordNnn f a &&& 0xF000#16 = wordNnn f 0#12 := by
  have h : (0xF000#16 : Word) = wordNnn 0xF#4 0#12 := by decide
  rw [h, wordNnn, wordNnn, wordNnn, BitVec.and_append]
  simp [and_ones4]

theorem wordXkk_mask (f : BitVec 4) (x : RegIx) (k : Byte) : wordXkk f x k &&& 0xF000#16 = wordXkk f 0#4 0#8 := by
  have h : (0xF000#16 : Word) = wordXkk 0xF#4 0#4 0#8 := by decide
  rw [h, wordXkk, wordXkk, wordXkk, BitVec.and_append, BitVec.and_append]
  simp [and_ones4]

/-- Mask 0xF0FF keeps the family and the low byte. -/
theorem wordXkk_maskLow (f : BitVec 4) (x : RegIx) (k : Byte) : wordXkk f x k &&& 0xF0FF#16 = wordXkk f 0#4 k := by
  have h : (0xF0FF#16 : Word) = wordXkk 0xF#4 0#4 0xFF#8 := by decide
  rw [h, wordXkk, wordXkk, wordXkk, BitVec.and_append, BitVec.and_append]
  simp [and_ones4, and_ones8]

/-- Mask 0xF000 keeps the family. -/
theorem wordXyn_mask (f : BitVec 4) (x y : RegIx) (n : BitVec 4) :
    wordXyn f x y n &&& 0xF000#16 = wordXyn f 0#4 0#4 0#4 := by
  have h : (0xF000#16 : Word) = wordXyn 0xF#4 0#4 0#4 0#4 := by decide
  rw [h, wordXyn, wordXyn, wordXyn, BitVec.and_append, BitVec.and_append, BitVec.and_append]
  simp [and_ones4]

/-- Mask 0xF00F keeps the family and the low nibble. -/
theorem wordXyn_maskLow (f : BitVec 4) (x y : RegIx) (n : BitVec 4) :
    wordXyn f x y n &&& 0xF00F#16 = wordXyn f 0#4 0#4 n := by
  have h : (0xF00F#16 : Word) = wordXyn 0xF#4 0#4 0#4 0xF#4 := by decide
  rw [h, wordXyn, wordXyn, wordXyn, BitVec.and_append, BitVec.and_append, BitVec.and_append]
  simp [and_ones4]

end Sys2Proof

namespace Sys2Proof.Laws.EncodeRow

/-- The encoding of the instruction is covered by the row of the opcode map with the instruction's own pattern. -/
def Statement (i : Instr) : Prop := ∃ r ∈ opcodeRows, r.pattern = i.pattern ∧ (encode i &&& r.mask) = r.value

theorem cls : Statement .cls :=
  ⟨⟨"00E0", 0xFFFF, 0x00E0⟩, by decide, rfl, by decide⟩

theorem ret : Statement .ret :=
  ⟨⟨"00EE", 0xFFFF, 0x00EE⟩, by decide, rfl, by decide⟩

theorem jp (nnn : Addr12) : Statement (.jp nnn) :=
  ⟨⟨"1nnn", 0xF000, 0x1000⟩, by decide, rfl, (wordNnn_mask _ _ ).trans (by decide)⟩

theorem call (nnn : Addr12) : Statement (.call nnn) :=
  ⟨⟨"2nnn", 0xF000, 0x2000⟩, by decide, rfl, (wordNnn_mask _ _ ).trans (by decide)⟩

theorem seImm (x : RegIx) (kk : Byte) : Statement (.seImm x kk) :=
  ⟨⟨"3xkk", 0xF000, 0x3000⟩, by decide, rfl, (wordXkk_mask _ _ _ ).trans (by decide)⟩

theorem sneImm (x : RegIx) (kk : Byte) : Statement (.sneImm x kk) :=
  ⟨⟨"4xkk", 0xF000, 0x4000⟩, by decide, rfl, (wordXkk_mask _ _ _ ).trans (by decide)⟩

theorem seReg (x y : RegIx) : Statement (.seReg x y) :=
  ⟨⟨"5xy0", 0xF00F, 0x5000⟩, by decide, rfl, (wordXyn_maskLow _ _ _ _ ).trans (by decide)⟩

theorem ldImm (x : RegIx) (kk : Byte) : Statement (.ldImm x kk) :=
  ⟨⟨"6xkk", 0xF000, 0x6000⟩, by decide, rfl, (wordXkk_mask _ _ _ ).trans (by decide)⟩

theorem addImm (x : RegIx) (kk : Byte) : Statement (.addImm x kk) :=
  ⟨⟨"7xkk", 0xF000, 0x7000⟩, by decide, rfl, (wordXkk_mask _ _ _ ).trans (by decide)⟩

theorem ldReg (x y : RegIx) : Statement (.ldReg x y) :=
  ⟨⟨"8xy0", 0xF00F, 0x8000⟩, by decide, rfl, (wordXyn_maskLow _ _ _ _ ).trans (by decide)⟩

theorem orReg (x y : RegIx) : Statement (.orReg x y) :=
  ⟨⟨"8xy1", 0xF00F, 0x8001⟩, by decide, rfl, (wordXyn_maskLow _ _ _ _ ).trans (by decide)⟩

theorem andReg (x y : RegIx) : Statement (.andReg x y) :=
  ⟨⟨"8xy2", 0xF00F, 0x8002⟩, by decide, rfl, (wordXyn_maskLow _ _ _ _ ).trans (by decide)⟩

theorem xorReg (x y : RegIx) : Statement (.xorReg x y) :=
  ⟨⟨"8xy3", 0xF00F, 0x8003⟩, by decide, rfl, (wordXyn_maskLow _ _ _ _ ).trans (by decide)⟩

theorem addReg (x y : RegIx) : Statement (.addReg x y) :=
  ⟨⟨"8xy4", 0xF00F, 0x8004⟩, by decide, rfl, (wordXyn_maskLow _ _ _ _ ).trans (by decide)⟩

theorem sub (x y : RegIx) : Statement (.sub x y) :=
  ⟨⟨"8xy5", 0xF00F, 0x8005⟩, by decide, rfl, (wordXyn_maskLow _ _ _ _ ).trans (by decide)⟩

theorem shr (x y : RegIx) : Statement (.shr x y) :=
  ⟨⟨"8xy6", 0xF00F, 0x8006⟩, by decide, rfl, (wordXyn_maskLow _ _ _ _ ).trans (by decide)⟩

theorem subn (x y : RegIx) : Statement (.subn x y) :=
  ⟨⟨"8xy7", 0xF00F, 0x8007⟩, by decide, rfl, (wordXyn_maskLow _ _ _ _ ).trans (by decide)⟩

theorem shl (x y : RegIx) : Statement (.shl x y) :=
  ⟨⟨"8xyE", 0xF00F, 0x800E⟩, by decide, rfl, (wordXyn_maskLow _ _ _ _ ).trans (by decide)⟩

theorem sneReg (x y : RegIx) : Statement (.sneReg x y) :=
  ⟨⟨"9xy0", 0xF00F, 0x9000⟩, by decide, rfl, (wordXyn_maskLow _ _ _ _ ).trans (by decide)⟩

theorem ldI (nnn : Addr12) : Statement (.ldI nnn) :=
  ⟨⟨"Annn", 0xF000, 0xA000⟩, by decide, rfl, (wordNnn_mask _ _ ).trans (by decide)⟩

theorem jpV0 (nnn : Addr12) : Statement (.jpV0 nnn) :=
  ⟨⟨"Bnnn", 0xF000, 0xB000⟩, by decide, rfl, (wordNnn_mask _ _ ).trans (by decide)⟩

theorem rnd (x : RegIx) (kk : Byte) : Statement (.rnd x kk) :=
  ⟨⟨"Cxkk", 0xF000, 0xC000⟩, by decide, rfl, (wordXkk_mask _ _ _ ).trans (by decide)⟩

theorem drw (x y : RegIx) (n : Nat) : Statement (.drw x y n) :=
  ⟨⟨"Dxyn", 0xF000, 0xD000⟩, by decide, rfl, (wordXyn_mask _ _ _ _ ).trans (by decide)⟩

theorem skp (x : RegIx) : Statement (.skp x) :=
  ⟨⟨"Ex9E", 0xF0FF, 0xE09E⟩, by decide, rfl, (wordXkk_maskLow _ _ _ ).trans (by decide)⟩

theorem sknp (x : RegIx) : Statement (.sknp x) :=
  ⟨⟨"ExA1", 0xF0FF, 0xE0A1⟩, by decide, rfl, (wordXkk_maskLow _ _ _ ).trans (by decide)⟩

theorem ldVxDt (x : RegIx) : Statement (.ldVxDt x) :=
  ⟨⟨"Fx07", 0xF0FF, 0xF007⟩, by decide, rfl, (wordXkk_maskLow _ _ _ ).trans (by decide)⟩

theorem ldVxK (x : RegIx) : Statement (.ldVxK x) :=
  ⟨⟨"Fx0A", 0xF0FF, 0xF00A⟩, by decide, rfl, (wordXkk_maskLow _ _ _ ).trans (by decide)⟩

theorem ldDtVx (x : RegIx) : Statement (.ldDtVx x) :=
  ⟨⟨"Fx15", 0xF0FF, 0xF015⟩, by decide, rfl, (wordXkk_maskLow _ _ _ ).trans (by decide)⟩

theorem ldStVx (x : RegIx) : Statement (.ldStVx x) :=
  ⟨⟨"Fx18", 0xF0FF, 0xF018⟩, by decide, rfl, (wordXkk_maskLow _ _ _ ).trans (by decide)⟩

theorem addIVx (x : RegIx) : Statement (.addIVx x) :=
  ⟨⟨"Fx1E", 0xF0FF, 0xF01E⟩, by decide, rfl, (wordXkk_maskLow _ _ _ ).trans (by decide)⟩

theorem ldFVx (x : RegIx) : Statement (.ldFVx x) :=
  ⟨⟨"Fx29", 0xF0FF, 0xF029⟩, by decide, rfl, (wordXkk_maskLow _ _ _ ).trans (by decide)⟩

theorem ldBVx (x : RegIx) : Statement (.ldBVx x) :=
  ⟨⟨"Fx33", 0xF0FF, 0xF033⟩, by decide, rfl, (wordXkk_maskLow _ _ _ ).trans (by decide)⟩

theorem ldMemVx (x : RegIx) : Statement (.ldMemVx x) :=
  ⟨⟨"Fx55", 0xF0FF, 0xF055⟩, by decide, rfl, (wordXkk_maskLow _ _ _ ).trans (by decide)⟩

theorem ldVxMem (x : RegIx) : Statement (.ldVxMem x) :=
  ⟨⟨"Fx65", 0xF0FF, 0xF065⟩, by decide, rfl, (wordXkk_maskLow _ _ _ ).trans (by decide)⟩

end Sys2Proof.Laws.EncodeRow
end

