-- ==== Sys2Proof/Tests/Slice0.lean ====
section
/-! SUPPORT. The model's own tests: the smoke test of WellFormed, a word written out from the spec for every constructor, one
step on a small state for every instruction (the vectors of 95_test_vectors.md by their ids), and for every statement with
hypotheses a concrete state that meets them. No expected value comes from the model. -/

namespace Sys2Proof.Tests

open Sys2Proof Sys2Proof.Machine Sys2Proof.Claims

/-! ## Helpers -/

/-- What `f` reads of the next state; none where the outcome is no next state. -/
def see {α : Type} (f : State → α) : Outcome → Option α
  | .next t => some (f t)
  | .fault _ => none
  | .refused _ => none

/-- The fault of an outcome. -/
def stop : Outcome → Option Fault
  | .next _ => none
  | .fault r => some r
  | .refused _ => none

/-- An outcome that is seen is a next state. -/
theorem completes {o : Outcome} (h : (see (fun _ => ()) o).isSome = true) : ∃ t, o = .next t := by
  cases o with
  | next t => exact ⟨t, rfl⟩
  | fault r => simp [see] at h
  | refused r => simp [see] at h

/-- A fault that is seen is the outcome. -/
theorem stops {o : Outcome} {r : Fault} (h : stop o = some r) : o = .fault r := by
  cases o with
  | next t => simp [stop] at h
  | fault r' => simpa [stop] using h
  | refused r' => simp [stop] at h

/-- One step that fetches the word `w`. -/
def run (w : Nat) (s : State) : Outcome := step (s.withFetchWord 16 w)

/-- Bytes placed in main memory. -/
def poke (a : Nat) (bytes : List Byte) (s : State) : State :=
  s.setMem (s.mem.writeList (resetByte s.env.glyphs) a bytes)

/-- The reset state with PC at `a`. -/
def atPc (a : Word) : State := State.reset.setPc a

/-- The reset state with keys in the snapshot. -/
def holding (keys : BitVec 16) : State := { State.reset with keys := keys }

/-- The reset state with `n` return addresses held, the top one `top`. -/
def stacked (n : Fin 17) (top : Word) : State :=
  { State.reset with sp := n, stack := State.reset.stack.setIfInBounds (n.val - 1) top }

/-! ## WellFormed: each check refuses an ill-formed term -/

theorem test_wellFormed_refuses_sixteen_rows : Instr.wellFormed (.drw 0x0#4 0x0#4 16) = false := by decide
theorem test_wellFormed_takes_fifteen_rows : Instr.wellFormed (.drw 0xF#4 0xF#4 15) = true := by decide
theorem test_imageFits_refuses_one_byte_too_many : imageFits (List.replicate 0xE01 0x00#8) = false := by
  rw [imageFits, List.length_replicate]; decide
theorem test_imageFits_takes_the_longest : imageFits (List.replicate 0xE00 0x00#8) = true := by
  rw [imageFits, List.length_replicate]; decide
theorem test_memory_wf_refuses_a_listed_default : Memory.wf resetCell 2048 [(5, 0x00#8)] = false := by decide
theorem test_memory_wf_refuses_a_wrong_order : Memory.wf resetCell 2048 [(5, 0xFF#8), (5, 0xFF#8)] = false := by decide
theorem test_memory_wf_refuses_an_address_outside : Memory.wf resetCell 2048 [(2048, 0xFF#8)] = false := by decide

/-! ## Decoding: a word written out from the patterns of R91 for every constructor -/

theorem test_decode_control_flow :
    decodeWord 0x00EE#16 = some (.ret) ∧
    decodeWord 0x12A3#16 = some (.jp 0x2A3#12) ∧
    decodeWord 0x2208#16 = some (.call 0x208#12) ∧
    decodeWord 0x3710#16 = some (.seImm 0x7#4 0x10#8) ∧
    decodeWord 0x4710#16 = some (.sneImm 0x7#4 0x10#8) ∧
    decodeWord 0x5120#16 = some (.seReg 0x1#4 0x2#4) ∧
    decodeWord 0x9120#16 = some (.sneReg 0x1#4 0x2#4) ∧
    decodeWord 0xB5FF#16 = some (.jpV0 0x5FF#12) := by decide

theorem test_decode_immediates :
    decodeWord 0x6A2F#16 = some (.ldImm 0xA#4 0x2F#8) ∧
    decodeWord 0x7220#16 = some (.addImm 0x2#4 0x20#8) ∧
    decodeWord 0xC30F#16 = some (.rnd 0x3#4 0x0F#8) := by decide

theorem test_decode_registers :
    decodeWord 0x8010#16 = some (.ldReg 0x0#4 0x1#4) ∧
    decodeWord 0x8231#16 = some (.orReg 0x2#4 0x3#4) ∧
    decodeWord 0x8452#16 = some (.andReg 0x4#4 0x5#4) ∧
    decodeWord 0x8673#16 = some (.xorReg 0x6#4 0x7#4) ∧
    decodeWord 0x8F14#16 = some (.addReg 0xF#4 0x1#4) ∧
    decodeWord 0x8F25#16 = some (.sub 0xF#4 0x2#4) ∧
    decodeWord 0x8406#16 = some (.shr 0x4#4 0x0#4) ∧
    decodeWord 0x8AB7#16 = some (.subn 0xA#4 0xB#4) ∧
    decodeWord 0x827E#16 = some (.shl 0x2#4 0x7#4) := by decide

theorem test_decode_display_and_keypad :
    decodeWord 0x00E0#16 = some (.cls) ∧
    decodeWord 0xD12F#16 = some (.drw 0x1#4 0x2#4 15) ∧
    decodeWord 0xF029#16 = some (.ldFVx 0x0#4) ∧
    decodeWord 0xE59E#16 = some (.skp 0x5#4) ∧
    decodeWord 0xE5A1#16 = some (.sknp 0x5#4) ∧
    decodeWord 0xF30A#16 = some (.ldVxK 0x3#4) := by decide

theorem test_decode_timers_and_memory :
    decodeWord 0xF207#16 = some (.ldVxDt 0x2#4) ∧
    decodeWord 0xF115#16 = some (.ldDtVx 0x1#4) ∧
    decodeWord 0xF118#16 = some (.ldStVx 0x1#4) ∧
    decodeWord 0xA2F0#16 = some (.ldI 0x2F0#12) ∧
    decodeWord 0xF41E#16 = some (.addIVx 0x4#4) ∧
    decodeWord 0xF333#16 = some (.ldBVx 0x3#4) ∧
    decodeWord 0xF155#16 = some (.ldMemVx 0x1#4) ∧
    decodeWord 0xFF65#16 = some (.ldVxMem 0xF#4) := by decide

/-- E.6 and E.7: words of no row. -/
theorem test_decode_refuses_illegal_words :
    [0x0000#16, 0x00E1#16, 0x01EE#16, 0x0123#16, 0x0FFF#16, 0x5121#16, 0x9121#16, 0x8008#16, 0x800F#16, 0xE09F#16,
      0xE0A0#16, 0xF000#16, 0xF0FF#16, 0xF066#16].all (fun w => decodeWord w == none && !legalWord w) = true := by decide

/-- Big-endian: the byte at the lower address is the high byte (R54). -/
theorem test_decode_bytes : decode [0x12#8, 0x34#8, 0x56#8] = .ok (.jp 0x234#12, [0x56#8]) := by decide
theorem test_decode_truncated : decode [0x12#8] = .error .truncated := by rfl
theorem test_decode_unrecognized : decode [0x00#8, 0xE1#8] = .error (.unrecognized 0x00E1#16) := by rfl
theorem test_decodeTableWord : decodeTableWord 16 0xD125 = some (.drw 0x1#4 0x2#4 5) := by decide
theorem test_listing : (Instr.drw 0xD#4 0x0#4 10).listing = "DRW VD, V0, A" := by decide

/-! ## One step: the cycle -/

/-- E.1. -/
theorem test_fetch_big_endian :
    (see State.ir (run 0x1234 State.reset)) = some 0x1234#16 := by decide

/-- E.2. -/
theorem test_fetch_odd_address :
    see (fun t => (t.ir, t.getV 0x0#4, t.pc)) (run 0x6011 (atPc 0x203#16)) = some (0x6011#16, 0x11#8, 0x205#16) := by decide

/-- E.3. -/
theorem test_fetch_last_word :
    see (fun t => (t.getV 0x0#4, t.pc)) (run 0x6011 (atPc 0xFFE#16)) = some (0x11#8, 0x1000#16) := by decide

/-- E.4. -/
theorem test_fetch_at_fff :
    stop (step (atPc 0xFFF#16)) = some (.memoryRange 0x1000 none 0xFFF#16) := by decide

/-- CF.16. -/
theorem test_fetch_beyond :
    stop (step (atPc 0x10FE#16)) = some (.memoryRange 0x10FE none 0x10FE#16) := by decide

/-- E.5, R.5. -/
theorem test_no_program :
    stop (step State.reset) = some (.decodeFault 0x0000#16 0x200#16) := by decide

/-- E.7. -/
theorem test_decode_fault :
    stop (run 0x5121 (atPc 0x300#16)) = some (.decodeFault 0x5121#16 0x300#16) := by decide

/-- K.7 and E.11. -/
theorem test_poll_is_after_execute :
    see (fun t => (t.pc, t.keys)) (cycle 0x0004#16 0x00#8 ((State.reset.setV 0x0#4 0x02#8).withFetchWord 16 0xE09E)) =
      some (0x202#16, 0x0004#16) := by decide

/-- K.8. -/
theorem test_waiting_ticks :
    see (fun t => (t.pc, t.getV 0x3#4, t.dt)) (run 0xF30A ((atPc 0x206#16).setDt 0x05#8)) =
      some (0x206#16, 0x00#8, 0x04#8) := by decide

/-- E.12. -/
theorem test_faulted_has_no_step :
    (let s : State := { State.reset with run := .faulted (.stackOverflow 0x2200#16 0x200#16) }
    stop (cycle 0xFFFF#16 0x00#8 s) = some (.stackOverflow 0x2200#16 0x200#16) ∧ s.afterCycle 0xFFFF#16 0x00#8 = s) :=
      ⟨rfl, rfl⟩


/-! ## One step: the instructions -/

/-- CF.1. -/
theorem test_ret :
    see (fun t => (t.pc, t.sp, t.stack[1])) (run 0x00EE ((stacked 2 0x346#16).setPc 0x400#16)) =
      some (0x346#16, 1, 0x346#16) := by decide

/-- CF.2. -/
theorem test_ret_empty :
    stop (run 0x00EE (atPc 0x204#16)) = some (.stackUnderflow 0x00EE#16 0x204#16) := by decide

/-- CF.3. -/
theorem test_jp_odd :
    see State.pc (run 0x12A3 State.reset) = some 0x2A3#16 := by decide

/-- CF.5. -/
theorem test_call_sixteenth :
    see (fun t => (t.stack[15], t.sp, t.pc)) (run 0x2400 ((stacked 15 0x300#16).setPc 0x250#16)) =
      some (0x252#16, 16, 0x400#16) := by decide

/-- CF.6. -/
theorem test_call_seventeenth :
    stop (run 0x2400 ((stacked 16 0x300#16).setPc 0x252#16)) = some (.stackOverflow 0x2400#16 0x252#16) := by decide

/-- CF.7 and CF.8. -/
theorem test_se_imm :
    (see State.pc (run 0x3710 (State.reset.setV 0x7#4 0x10#8)) = some 0x204#16 ∧
     see State.pc (run 0x3710 (State.reset.setV 0x7#4 0x11#8)) = some 0x202#16) := by decide

/-- CF.9. -/
theorem test_sne_imm :
    see State.pc (run 0x4710 (State.reset.setV 0x7#4 0x11#8)) = some 0x204#16 := by decide

/-- CF.11 and CF.12. -/
theorem test_se_reg :
    (see State.pc (run 0x5330 (State.reset.setV 0x3#4 0x09#8)) = some 0x204#16 ∧
     see State.pc (run 0x5120 ((State.reset.setV 0x1#4 0x05#8).setV 0x2#4 0x06#8)) = some 0x202#16) := by decide

/-- CF.13 and CF.14. -/
theorem test_sne_reg :
    (see State.pc (run 0x9330 (State.reset.setV 0x3#4 0x09#8)) = some 0x202#16 ∧
     see State.pc (run 0x9120 ((State.reset.setV 0x1#4 0x05#8).setV 0x2#4 0x06#8)) = some 0x204#16) := by decide

/-- CF.16. -/
theorem test_jp_v0 :
    see State.pc (run 0xBFFF (State.reset.setV 0x0#4 0xFF#8)) = some 0x10FE#16 := by decide

/-- CF.17. -/
theorem test_jp_v0_ignores_x :
    see State.pc (run 0xB5FF (State.reset.setV 0x5#4 0x01#8)) = some 0x5FF#16 := by decide

/-- A.1. -/
theorem test_ld_imm :
    see (fun t => t.getV 0xF#4) (run 0x6F55 State.reset) = some 0x55#8 := by decide

/-- A.2. -/
theorem test_add_imm :
    see (fun t => (t.getV 0x0#4, t.getV 0xF#4)) (run 0x7001 ((State.reset.setV 0x0#4 0xFF#8).setV 0xF#4 0x77#8)) =
      some (0x00#8, 0x77#8) := by decide

/-- A.4. -/
theorem test_add_imm_vf :
    see (fun t => t.getV 0xF#4) (run 0x7FFF (State.reset.setV 0xF#4 0x01#8)) = some 0x00#8 := by decide

/-- A.5. -/
theorem test_ld_reg :
    see (fun t => t.getV 0x0#4) (run 0x8010 (State.reset.setV 0x1#4 0x33#8)) = some 0x33#8 := by decide

/-- A.6. -/
theorem test_or :
    see (fun t => (t.getV 0x0#4, t.getV 0xF#4)) (run 0x8011 (((State.reset.setV 0x0#4 0x0F#8).setV 0x1#4 0xF0#8).setV
      0xF#4 0x01#8)) =
      some (0xFF#8, 0x01#8) := by decide

/-- A.7. -/
theorem test_and :
    see (fun t => (t.getV 0x0#4, t.getV 0xF#4)) (run 0x8012 (((State.reset.setV 0x0#4 0x3C#8).setV 0x1#4 0x0F#8).setV
      0xF#4 0x01#8)) =
      some (0x0C#8, 0x01#8) := by decide

/-- A.8. -/
theorem test_xor :
    see (fun t => (t.getV 0x0#4, t.getV 0xF#4)) (run 0x8013 (((State.reset.setV 0x0#4 0x3C#8).setV 0x1#4 0x0F#8).setV
      0xF#4 0x01#8)) =
      some (0x33#8, 0x01#8) := by decide

/-- A.10, L1.4. -/
theorem test_add_reg_carry :
    see (fun t => (t.getV 0x0#4, t.getV 0xF#4)) (run 0x8014 (((State.reset.setV 0x0#4 0xFF#8).setV 0x1#4 0x01#8).setV
      0xF#4 0x00#8)) =
      some (0x00#8, 0x01#8) := by decide

/-- A.12. -/
theorem test_add_reg_vf_is_the_sum :
    see (fun t => t.getV 0xF#4) (run 0x8F14 ((State.reset.setV 0xF#4 0x80#8).setV 0x1#4 0x90#8)) = some 0x10#8 := by decide

/-- L1.5. -/
theorem test_sub_wraps :
    see (fun t => (t.getV 0x0#4, t.getV 0xF#4)) (run 0x8015 (((State.reset.setV 0x0#4 0x01#8).setV 0x1#4 0x02#8).setV
      0xF#4 0x01#8)) =
      some (0xFF#8, 0x00#8) := by decide

/-- A.15. -/
theorem test_sub_equal_is_strict :
    see (fun t => (t.getV 0x0#4, t.getV 0xF#4)) (run 0x8015 (((State.reset.setV 0x0#4 0x42#8).setV 0x1#4 0x42#8).setV
      0xF#4 0x01#8)) =
      some (0x00#8, 0x00#8) := by decide

/-- R150's example on V0, with a y as in A.21. -/
theorem test_shr_ignores_y :
    see (fun t => (t.getV 0x0#4, t.getV 0xF#4)) (run 0x8016 (((State.reset.setV 0x0#4 0x05#8).setV 0x1#4 0xFF#8).setV
      0xF#4 0x00#8)) =
      some (0x02#8, 0x01#8) := by decide

/-- A.22. -/
theorem test_shr_vf_is_the_result :
    see (fun t => t.getV 0xF#4) (run 0x8FF6 (State.reset.setV 0xF#4 0x06#8)) = some 0x03#8 := by decide

/-- A.24. -/
theorem test_subn :
    see (fun t => (t.getV 0x0#4, t.getV 0xF#4)) (run 0x8017 (((State.reset.setV 0x0#4 0x10#8).setV 0x1#4 0x30#8).setV
      0xF#4 0x00#8)) =
      some (0x20#8, 0x01#8) := by decide

/-- A.23. -/
theorem test_subn_wraps :
    see (fun t => (t.getV 0x0#4, t.getV 0xF#4)) (run 0x8017 (((State.reset.setV 0x0#4 0x30#8).setV 0x1#4 0x10#8).setV
      0xF#4 0x01#8)) =
      some (0xE0#8, 0x00#8) := by decide

/-- A.27. -/
theorem test_shl :
    see (fun t => (t.getV 0x0#4, t.getV 0xF#4)) (run 0x800E (((State.reset.setV 0x0#4 0xFF#8).setV 0x1#4 0x00#8).setV
      0xF#4 0x00#8)) =
      some (0xFE#8, 0x01#8) := by decide

/-- A.28. -/
theorem test_shl_vf_is_the_result :
    see (fun t => t.getV 0xF#4) (run 0x8FFE (State.reset.setV 0xF#4 0x81#8)) = some 0x02#8 := by decide

/-- A.29. -/
theorem test_rnd :
    see (fun t => t.getV 0x0#4) (cycle 0x0000#16 0x5A#8 (State.reset.withFetchWord 16 0xC0F0)) = some 0x50#8 := by decide

/-- D.1. -/
theorem test_cls :
    see (fun t => (t.cell 0, t.cell 2047, t.getV 0xF#4))
      (run 0x00E0 ((State.reset.setFb [(0, 0xFF#8), (2047, 0xFF#8)]).setV 0xF#4 0x01#8)) =
      some (0x00#8, 0x00#8, 0x01#8) := by decide

/-- A sprite byte at 0x300, I there, V0 and V1 the position. -/
def sprite (rows : List Byte) (px py : Byte) : State :=
  poke 0x300 rows (((State.reset.setI 0x300#16).setV 0x0#4 px).setV 0x1#4 py)

/-- P3, cycle 5. -/
theorem test_drw_wraps :
    see (fun t => (t.fb.map (fun c => c.1), t.getV 0xF#4)) (run 0xD012 (sprite [0xC0#8, 0xC0#8] 0x3E#8 0x1F#8)) =
      some ([62, 63, 2046, 2047], 0x00#8) := by decide

/-- D.9. -/
theorem test_drw_collides :
    see (fun t => (t.cell 0, t.cell 1, t.getV 0xF#4)) (run 0xD011 ((sprite [0xC0#8] 0x00#8 0x00#8).setFb [(1, 0xFF#8)])) =
      some (0xFF#8, 0x00#8, 0x01#8) := by decide

/-- D.16. -/
theorem test_ld_f_whole_byte :
    see State.i (run 0xF029 (State.reset.setV 0x0#4 0xFF#8)) = some 0x054B#16 := by decide

/-- D.14. -/
theorem test_ld_f :
    see State.i (run 0xF029 (State.reset.setV 0x0#4 0x0F#8)) = some 0x009B#16 := by decide

/-- K.1 and K.2. -/
theorem test_skp :
    (see State.pc (run 0xE59E (((holding 0x0400#16).setV 0x5#4 0x0A#8).setPc 0x210#16)) = some 0x214#16 ∧
     see State.pc (run 0xE59E ((State.reset.setV 0x5#4 0x0A#8).setPc 0x210#16)) = some 0x212#16) := by decide

/-- K.5. -/
theorem test_skp_no_key :
    stop (run 0xE59E ((State.reset.setV 0x5#4 0x10#8).setPc 0x210#16)) = some (.keyIndex 0x10#8 0xE59E#16 0x210#16) :=
      by decide

/-- K.3 and K.4. -/
theorem test_sknp :
    (see State.pc (run 0xE5A1 ((State.reset.setV 0x5#4 0x0A#8).setPc 0x210#16)) = some 0x214#16 ∧
     see State.pc (run 0xE5A1 (((holding 0x0400#16).setV 0x5#4 0x0A#8).setPc 0x210#16)) = some 0x212#16) := by decide

/-- K.6. -/
theorem test_sknp_no_key :
    stop (run 0xE5A1 ((State.reset.setV 0x5#4 0xFF#8).setPc 0x210#16)) = some (.keyIndex 0xFF#8 0xE5A1#16 0x210#16) :=
      by decide

/-- K.9. -/
theorem test_wait_one_key :
    see (fun t => (t.getV 0x3#4, t.pc)) (run 0xF30A ((holding 0x0080#16).setPc 0x206#16)) = some (0x07#8, 0x208#16) :=
      by decide

/-- K.10, by either draw. -/
theorem test_wait_two_keys :
    (chooseKey 0x0208#16 0 = some 3 ∧ chooseKey 0x0208#16 1 = some 9) := by decide

/-- T.1. -/
theorem test_read_delay_before_the_tick :
    see (fun t => (t.getV 0x2#4, t.dt)) (run 0xF207 (State.reset.setDt 0x10#8)) = some (0x10#8, 0x0F#8) := by decide

/-- T.3. -/
theorem test_set_delay :
    see State.dt (run 0xF115 (State.reset.setV 0x1#4 0x03#8)) = some 0x02#8 := by decide

/-- T.5. -/
theorem test_set_sound :
    see (fun t => (t.st, t.tone)) (run 0xF118 (State.reset.setV 0x1#4 0x05#8)) = some (0x04#8, true) := by decide

/-- T.6. -/
theorem test_set_sound_to_one :
    see (fun t => (t.st, t.tone)) (run 0xF118 (State.reset.setV 0x1#4 0x01#8)) = some (0x00#8, false) := by decide

/-- M.2. -/
theorem test_ld_i :
    see State.i (run 0xAFFF State.reset) = some 0x0FFF#16 := by decide

/-- M.4. -/
theorem test_add_i_wraps :
    see State.i (run 0xF01E ((State.reset.setI 0xFFFF#16).setV 0x0#4 0x02#8)) = some 0x0001#16 := by decide

/-- M.3. -/
theorem test_add_i_no_flag :
    see (fun t => (t.i, t.getV 0xF#4)) (run 0xF01E ((State.reset.setI 0x0FFF#16).setV 0x0#4 0x01#8)) =
      some (0x1000#16, 0x00#8) := by decide

/-- L1.7. -/
theorem test_digits :
    see (fun t => (t.memByte 0x300, t.memByte 0x301, t.memByte 0x302,
      t.i)) (run 0xF333 ((State.reset.setI 0x300#16).setV 0x3#4 156#8)) =
      some (0x01#8, 0x05#8, 0x06#8, 0x300#16) := by decide

/-- M.9. -/
theorem test_digits_out_of_range :
    stop (run 0xF033 (State.reset.setI 0xFFE#16)) = some (.memoryRange 0x1000 (some 0xF033#16) 0x200#16) := by decide

/-- M.10. -/
theorem test_store :
    see (fun t => (t.memByte 0x300, t.memByte 0x301, t.memByte 0x302, t.i))
      (run 0xF155 (((State.reset.setI 0x300#16).setV 0x0#4 0x11#8).setV 0x1#4 0x22#8)) =
      some (0x11#8, 0x22#8, 0x00#8, 0x300#16) := by decide

/-- M.12. -/
theorem test_store_out_of_range :
    stop (run 0xFF55 (State.reset.setI 0xFF1#16)) = some (.memoryRange 0x1000 (some 0xFF55#16) 0x200#16) := by decide

/-- M.13. -/
theorem test_load_one :
    see (fun t => (t.getV 0x0#4, t.getV 0x1#4,
      t.i)) (run 0xF065 (poke 0x300 [0xAB#8] ((State.reset.setI 0x300#16).setV 0x1#4 0x77#8))) =
      some (0xAB#8, 0x77#8, 0x300#16) := by decide

/-- M.15, the default font. -/
theorem test_load_glyph :
    see (fun t => (t.getV 0x0#4, t.getV 0x1#4, t.getV 0x4#4)) (run 0xF465 (State.reset.setI 0x050#16)) =
      some (0xF0#8, 0x90#8, 0xF0#8) := by decide


/-! ## Load -/

/-- R.4. -/
theorem test_load_odd_image :
    (let s := State.reset.load [0x60#8, 0x05#8, 0x12#8]
    (s.memByte 0x200, s.memByte 0x201, s.memByte 0x202, s.memByte 0x203) = (0x60#8, 0x05#8, 0x12#8, 0x00#8) ∧
    see (fun t => t.getV 0x0#4) (step s) = some 0x05#8) := by decide

/-- R.3. -/
theorem test_load_too_large :
    (State.reset.load (List.replicate 0xE01 0x00#8)).run = .faulted (.loadFault 0xE01) := by
  have h : imageFits (List.replicate 0xE01 0x00#8) = false := test_imageFits_refuses_one_byte_too_many
  simp only [State.load, h, List.length_replicate]; rfl


/-! ## Witnesses: for every statement with hypotheses, values that meet them together -/

theorem witness_DecodeOfEncodeIsTheInstruction :
    Instr.wellFormed (.drw 0xF#4 0x0#4 15) = true := by decide

theorem witness_EncodeOfDecodeIsTheWord :
    decodeWord 0x827E#16 = some (.shl 0x2#4 0x7#4) := by decide

theorem witness_DecoderIsTheOpcodeMap :
    (⟨"8xyE", 0xF00F, 0x800E⟩ : OpcodeRow) ∈ opcodeRows ∧ (0x827E#16 &&& 0xF00F#16) = 0x800E#16 := by decide

theorem witness_FetchReadsTwoBytesBigEndian :
    (atPc 0xFFE#16).pc.toNat + 1 < 4096 ∧
    ((atPc 0x1000#16).run = .running ∧ 4096 ≤ (atPc 0x1000#16).pc.toNat) ∧
    ((atPc 0xFFF#16).run = .running ∧ (atPc 0xFFF#16).pc.toNat = 4095) := ⟨by decide, ⟨rfl, by decide⟩, rfl, by decide⟩

theorem witness_StepRunsTheDecodedInstruction :
    let s := (atPc 0xFFE#16).withFetchWord 16 0xD125
    s.run = .running ∧ s.pc.toNat + 1 < 4096 ∧
    decode [s.memByte s.pc.toNat, s.memByte (s.pc.toNat + 1)] = .ok (.drw 0x1#4 0x2#4 5, []) := ⟨rfl, by decide, by decide⟩

theorem witness_UnrecognizedOpcodeRaisesDecodeFault :
    let s := (atPc 0xFFE#16).withFetchWord 16 0x5121
    s.run = .running ∧ s.pc.toNat + 1 < 4096 ∧ legalWord (s.memByte s.pc.toNat ++ s.memByte (s.pc.toNat + 1)) = false :=
      ⟨rfl, by decide, by decide⟩

theorem witness_EndOfCyclePollsAndTicks :
    0 < (State.reset.setDt 0x01#8).dt.toNat ∧ State.reset.dt = 0#8 ∧ 0 < (State.reset.setSt 0xFF#8).st.toNat ∧
      State.reset.st = 0#8 := by decide

theorem witness_CompletedCycleHoldsItsKeys :
    ∃ t, cycle 0x0008#16 0x5A#8 (State.reset.withFetchWord 16 0x6A2F) = .next t := completes (by decide)

theorem witness_EveryCompletedCycleTicksOnce :
    (let s := (State.reset.setV 0x1#4 0x03#8).withFetchWord 16 0xF115;
      (∃ t, step s = .next t) ∧ decodeWord (s.memByte s.pc.toNat ++ s.memByte (s.pc.toNat + 1)) = some (.ldDtVx 0x1#4)) ∧
    (let s := (State.reset.setV 0x1#4 0x01#8).withFetchWord 16 0xF118;
      (∃ t, step s = .next t) ∧ decodeWord (s.memByte s.pc.toNat ++ s.memByte (s.pc.toNat + 1)) = some (.ldStVx 0x1#4)) ∧
    (let s := (State.reset.setDt 0x05#8).withFetchWord 16 0xF30A;
      (∃ t, step s = .next t) ∧ decodeWord (s.memByte s.pc.toNat ++ s.memByte (s.pc.toNat + 1)) = some (.ldVxK 0x3#4)) :=
      ⟨⟨completes (by decide), by decide⟩, ⟨completes (by decide), by decide⟩, completes (by decide), by decide⟩

theorem witness_FaultHaltsUntilReset :
    (∃ (s : State) (r : Fault), s.run = .faulted r) ∧
    (State.reset.run = .running ∧ cycle 0x0000#16 0x00#8 State.reset = .fault (.decodeFault 0x0000#16 0x200#16)) :=
      ⟨⟨{ State.reset with run := .faulted (.loadFault 0xE01) }, _, rfl⟩, rfl, stops (by decide)⟩

theorem witness_ReturnPopsTheCallStack :
    (stacked 0 0x202#16).sp.val = 0 ∧ 0 < (stacked 1 0x202#16).sp.val ∧ 0 < (stacked 16 0x1000#16).sp.val ∧
      (stacked 16 0x1000#16).stackOk := ⟨rfl, by decide, by decide, by unfold State.stackOk; decide⟩

theorem witness_CallPushesTheReturnAddress :
    (stacked 16 0x202#16).sp.val = 16 ∧ (stacked 15 0x202#16).sp.val < 16 ∧ State.reset.sp.val < 16 := by decide

/-- SkipOnImmediate and SkipOnRegisters: both values of the condition, and a non-zero selector. -/
theorem witness_SkipsWhen :
    ((State.reset.setV 0x3#4 0x42#8).getV 0x3#4 = 0x42#8 ∧ State.reset.getV 0x3#4 ≠ 0x42#8) ∧ (0x1#4 : BitVec 4) ≠ 0#4 :=
      by decide

/-- With r = t. -/
theorem witness_CallThenReturnRestoresPcAndSp :
    ∃ t, exec (.call 0x300#12) (stacked 15 0x202#16) = .next t := completes (by decide)

/-- AddRegistersWithCarry, SubtractWithStrictFlag, ShiftByOneIntoVF: x ≠ F. -/
theorem witness_flag_registers :
    (0x0#4 : RegIx) ≠ 0xF#4 ∧ (0xE#4 : RegIx) ≠ 0xF#4 := by decide

/-- DrawXorsTheSpriteAndFlagsCollision: the last sprite in range, n =
      0 with I out of range, the first row out of range, a cell
under the sprite that is on and one that is off, and a cell that is not under it. -/
theorem witness_DrawXorsTheSpriteAndFlagsCollision :
    (15 < 16 ∧ (State.reset.setI 0xFF1#16).fbOk ∧ (State.reset.setI 0xFF1#16).i.toNat + 15 ≤ 4096) ∧
    ((State.reset.setI 0xFFFF#16).i.toNat = 65535 ∧ FirstOutOfRange 0xFFF 2 1 ∧ FirstOutOfRange 0xFFFF 15 0) ∧
    (let s := (sprite [0xC0#8] 0x00#8 0x00#8).setFb [(1, 0xFF#8)];
      s.fbOk ∧ UnderSprite 0x0#4 0x1#4 1 s 0 ∧ s.cell 0 ≠ 0xFF#8 ∧ UnderSprite 0x0#4 0x1#4 1 s 1 ∧ s.cell 1 = 0xFF#8 ∧
      ¬ UnderSprite 0x0#4 0x1#4 1 s 2) ∧
    ¬ ∃ c, UnderSprite 0x0#4 0x1#4 0 State.reset c ∧ State.reset.cell c = 0xFF#8 := by
  refine ⟨⟨by decide, ⟨by decide, by decide⟩, by decide⟩, ⟨by decide, ⟨by decide, by decide, by decide⟩, ⟨by decide,
      by decide, by decide⟩⟩,
    ⟨⟨by decide, by decide⟩, ⟨0, by decide, 0, by decide, by decide, by decide⟩, by decide, ⟨0, by decide, 1, by decide,
      by decide, by decide⟩,
      by decide, ?_⟩, ?_⟩
  · unfold UnderSprite; decide
  · rintro ⟨c, ⟨row, h, -⟩, -⟩; omega

theorem witness_SkipOnKey :
    0x0F < ((State.reset.setV 0x5#4 0x10#8).getV 0x5#4).toNat ∧ ((State.reset.setV 0x5#4 0x0F#8).getV 0x5#4).toNat ≤ 0x0F ∧
    ((holding 0x8000#16).setV 0x5#4 0x0F#8).keys.getLsbD 15 = true ∧
      (State.reset.setV 0x5#4 0x0F#8).keys.getLsbD 15 = false := by decide

theorem witness_WaitForKey :
    State.reset.keys = 0#16 ∧ (holding 0x0001#16).keys ≠ 0#16 ∧ (holding 0x8000#16).keys ≠ 0#16 := by decide

theorem witness_EveryHeldKeyCanBeChosen :
    (0x8001#16 : BitVec 16).getLsbD 15 = true ∧ chooseKey 0x8001#16 7 = some 15 ∧ chooseKey 0x8001#16 0 = some 0 := by decide

theorem witness_SetTimers :
    ((State.reset.setV 0x1#4 0x01#8).getV 0x1#4).toNat = 1 := by decide

theorem witness_StoreDecimalDigits :
    ((State.reset.setI 0xFFD#16).memOk ∧ (State.reset.setI 0xFFD#16).i.toNat + 3 ≤ 4096) ∧
    (State.reset.setI 0xFFE#16).memOk ∧ FirstOutOfRange 0xFFE 3 2 ∧ FirstOutOfRange 0xFFF 3 1 ∧
      FirstOutOfRange 0xFFFF 3 0 := ⟨⟨rfl, by decide⟩, rfl, ⟨by decide, by decide, by decide⟩, ⟨by decide, by decide,
      by decide⟩, by decide, by decide, by decide⟩

/-- StoreRegisters and LoadRegisters. -/
theorem witness_StoreRegisters :
    ((State.reset.setI 0xFF0#16).memOk ∧ (State.reset.setI 0xFF0#16).i.toNat + ((0xF#4 : RegIx).toNat + 1) ≤ 4096 ∧
      (0xF#4 : RegIx).toNat ≤ (0xF#4 : RegIx).toNat) ∧
    (State.reset.setI 0xFF1#16).memOk ∧ FirstOutOfRange 0xFF1 ((0xF#4 : RegIx).toNat + 1) 15 ∧
      FirstOutOfRange 0x1000 ((0x0#4 : RegIx).toNat + 1) 0 :=
      ⟨⟨rfl, by decide, by decide⟩, rfl, ⟨by decide, by decide, by decide⟩, by decide, by decide, by decide⟩

/-- StoreIsSeenByTheNextFetch: V1 and V2 are stored over the word at PC. -/
def storing : State := ((State.reset.setI 0x1FF#16).setV 0x1#4 0x12#8).setV 0x2#4 0x0C#8

theorem witness_StoreIsSeenByTheNextFetch :
    storing.memOk ∧ (∃ t, exec (.ldMemVx 0x2#4) storing = .next t) ∧ (0x1#4 : RegIx).toNat + 1 = (0x2#4 : RegIx).toNat ∧
    (0x2#4 : RegIx).toNat ≤ (0x2#4 : RegIx).toNat ∧ storing.pc.toNat = storing.i.toNat + (0x1#4 : RegIx).toNat :=
      ⟨rfl, completes (by decide), by decide, by decide, by decide⟩

/-- Each kind of EachInstructionRaisesOnlyItsCause. -/
theorem witness_EachInstructionRaisesOnlyItsCause :
    (stop (exec (.call 0x400#12) (stacked 16 0x300#16))).isSome ∧ (stop (exec .ret State.reset)).isSome ∧
    (stop (exec (.ldMemVx 0x0#4) (State.reset.setI 0x1000#16))).isSome ∧
    (stop (exec (.skp 0x5#4) (State.reset.setV 0x5#4 0x10#8))).isSome := by decide

/-- The statements "only ... writes ...": an instruction that completes and does write. -/
theorem witness_writes_sp : see (fun t => (decide (t.sp ≠ (stacked 1 0x202#16).sp), decide (t.sp.val + 1 = 1)))
    (exec .ret (stacked 1 0x202#16)) = some (true, true) := by decide
theorem witness_writes_stack : see (fun t => decide (t.stack ≠ State.reset.stack)) (exec (.call 0x400#12) State.reset) =
    some true := by decide
theorem witness_writes_i : see (fun t => decide (t.i ≠ State.reset.i)) (exec (.ldI 0x300#12) State.reset) = some true := by
  decide
theorem witness_writes_pc : see (fun t => decide (t.pc ≠ State.reset.pc)) (exec (.ldVxK 0x3#4) State.reset) = some true := by
  decide
theorem witness_writes_memory : see (fun t => decide (t.memByte 0x300 ≠ storing.memByte 0x300))
    (exec (.ldMemVx 0x2#4) ((storing.setI 0x2FF#16))) = some true := by decide
theorem witness_writes_fb : see (fun t => decide (t.cell 0 ≠ State.reset.cell 0)) (exec (.drw 0x0#4 0x1#4 1) (sprite
      [0x80#8] 0x00#8 0x00#8)) =
    some true := by decide
theorem witness_writes_timers : see (fun t => decide (t.dt ≠ 0#8)) (exec (.ldDtVx 0x1#4) (State.reset.setV 0x1#4 0x01#8))
      = some true ∧
    see (fun t => decide (t.st ≠ 0#8)) (exec (.ldStVx 0x1#4) (State.reset.setV 0x1#4 0x01#8)) = some true := by decide
theorem witness_RegistersAreWrittenAsTabled : (∃ t, exec (.addReg 0x0#4 0x1#4) State.reset = .next t) ∧
    (0x1#4 : RegIx) ∉ writtenRegs (.addReg 0x0#4 0x1#4) := ⟨completes (by decide), by decide⟩
theorem witness_OnlyRandomDependsOnTheInputs : ∀ x kk, Instr.skp 0x5#4 ≠ .rnd x kk := by intro x kk h; cases h

/-- StepKeepsTheInvariant, InvariantHoldsAfterResetAndLoad,
      FrameBufferCellsAreOffOrOn: the invariant holds at reset and after
a load, and a step from there completes. -/
def started : State := State.reset.withFetchWord 16 0x6A2F
theorem witness_StepKeepsTheInvariant : started.Inv ∧ started.fbOk ∧ State.reset.Inv ∧ ∃ t, step started = .next t :=
  have stack : ∀ j : Fin 16, State.reset.stack[j].toNat ≤ 0x1000 := by decide
  ⟨⟨by unfold State.memOk; decide, ⟨rfl, rfl⟩, stack, by unfold State.pcOk; decide⟩, ⟨rfl, rfl⟩,
    ⟨rfl, ⟨rfl, rfl⟩, stack, by unfold State.pcOk; decide⟩, completes (by decide)⟩

theorem witness_ResetEstablishesEveryPiece :
    79 < 80 ∧ (0x04F < 0x050 ∨ 0x0A0 ≤ 0x04F) ∧ (0x0A0 < 0x050 ∨ 0x0A0 ≤ 0x0A0) := by decide

theorem witness_LoadCopiesTheImageOrFaults :
    State.reset.memOk ∧ State.reset.run = .running ∧ (List.replicate 0xE00 0x01#8).length ≤ 0xE00 ∧
    0xDFF < (List.replicate 0xE00 0x01#8).length ∧ 0xE00 < (List.replicate 0xE01 0x01#8).length := by
  simp only [List.length_replicate]
  exact ⟨rfl, rfl, by decide⟩

theorem witness_PortsReadTheState :
    2047 < 2048 ∧ 4095 < 4096 ∧ State.reset.st = 0#8 ∧ (State.reset.setSt 0x01#8).st ≠ 0#8 := by decide


end Sys2Proof.Tests
end

section
/-! SUPPORT. What each instruction may write, piece of state by piece (10_state.md R20 to R33), and that it keeps the rest:
one rule per update of the state, then one theorem over all instructions. -/

namespace Sys2Proof.Machine

open Sys2Proof.Claims

variable {i : Instr} {s t : State}

/-! ## The written-by columns -/

/-- The instructions that write I (10_state.md R22). -/
def WritesI (i : Instr) : Prop := (∃ nnn, i = .ldI nnn) ∨ (∃ x, i = .addIVx x) ∨ (∃ x, i = .ldFVx x)

/-- The six skips (30_encoding.md R90). -/
def IsSkip (i : Instr) : Prop :=
  (∃ x kk, i = .seImm x kk) ∨ (∃ x kk, i = .sneImm x kk) ∨ (∃ x y, i = .seReg x y) ∨
    (∃ x y, i = .sneReg x y) ∨ (∃ x, i = .skp x) ∨ (∃ x, i = .sknp x)

/-- The instructions that load PC with a target of their own (40_control_flow.md R120, R121, R122, R127). -/
def IsJump (i : Instr) : Prop := i = .ret ∨ (∃ nnn, i = .jp nnn) ∨ (∃ nnn, i = .call nnn) ∨ (∃ nnn, i = .jpV0 nnn)

/-- The instructions that write PC in the execute step (10_state.md R23). -/
def WritesPc (i : Instr) : Prop := IsJump i ∨ IsSkip i ∨ ∃ x, i = .ldVxK x

/-- The instructions that write a stack slot (10_state.md R25). -/
def WritesStack (i : Instr) : Prop := ∃ nnn, i = .call nnn

/-- The instructions that write SP (10_state.md R24). -/
def WritesSp (i : Instr) : Prop := WritesStack i ∨ i = .ret

/-- The instructions that write DT (10_state.md R26). -/
def WritesDt (i : Instr) : Prop := ∃ x, i = .ldDtVx x

/-- The instructions that write ST (10_state.md R27). -/
def WritesSt (i : Instr) : Prop := ∃ x, i = .ldStVx x

/-- The instructions that write main memory (20_memory.md R51). -/
def WritesMem (i : Instr) : Prop := (∃ x, i = .ldBVx x) ∨ (∃ x, i = .ldMemVx x)

/-- The instructions that write the frame buffer (10_state.md R32). -/
def WritesFb (i : Instr) : Prop := i = .cls ∨ (∃ x y n, i = .drw x y n)

/-- From `s` to `t` only what `i` may write has changed. Both memories are kept as lists, which is more than their cells. -/
structure Keeps (i : Instr) (s t : State) : Prop where
  regs : ∀ j, j ∉ writtenRegs i → t.getV j = s.getV j
  iReg : ¬ WritesI i → t.i = s.i
  pc : ¬ WritesPc i → t.pc = s.pc
  sp : ¬ WritesSp i → t.sp = s.sp
  stack : ¬ WritesStack i → t.stack = s.stack
  dt : ¬ WritesDt i → t.dt = s.dt
  st : ¬ WritesSt i → t.st = s.st
  mem : ¬ WritesMem i → t.mem = s.mem
  fb : ¬ WritesFb i → t.fb = s.fb
  keys : t.keys = s.keys
  ir : t.ir = s.ir
  run : t.run = s.run
  env : t.env = s.env

/-! ## One rule per update -/

namespace Keeps

theorem refl (i : Instr) (s : State) : Keeps i s s := by
  constructor <;> intros <;> rfl

theorem setV (k : Keeps i s t) {x : RegIx} (hx : x ∈ writtenRegs i) (b : Byte) : Keeps i s (t.setV x b) :=
  { k with
    regs := fun j hj => by
      have hne : j ≠ x := fun e => hj (e ▸ hx)
      rw [getV_setV_other t b hne, k.regs j hj] }

theorem setVs (k : Keeps i s t) {bytes : List Byte} (hw : ∀ j : RegIx, j.toNat < bytes.length → j ∈ writtenRegs i) :
    Keeps i s (t.setVs 0 bytes) := by
  rw [setVs_frame]
  exact { k with
    regs := fun j hj => by
      have hout : ¬ (0 ≤ j.toNat ∧ j.toNat - 0 < bytes.length) := fun ⟨_, h⟩ => hj (hw j h)
      exact ((getV_setVs bytes t 0 j).trans (dif_neg hout)).trans (k.regs j hj) }

theorem setI (k : Keeps i s t) (hw : WritesI i) (a : Word) : Keeps i s (t.setI a) :=
  { k with iReg := absurd hw }

theorem setPc (k : Keeps i s t) (hw : WritesPc i) (a : Word) : Keeps i s (t.setPc a) :=
  { k with pc := absurd hw }

theorem setDt (k : Keeps i s t) (hw : WritesDt i) (b : Byte) : Keeps i s (t.setDt b) :=
  { k with dt := absurd hw }

theorem setSt (k : Keeps i s t) (hw : WritesSt i) (b : Byte) : Keeps i s (t.setSt b) :=
  { k with st := absurd hw }

theorem setMem (k : Keeps i s t) (hw : WritesMem i) (m : Memory) : Keeps i s (t.setMem m) :=
  { k with mem := absurd hw }

theorem setFb (k : Keeps i s t) (hw : WritesFb i) (m : Memory) : Keeps i s (t.setFb m) :=
  { k with fb := absurd hw }

/-- A skip taken or not (30_encoding.md R90). -/
theorem of_skip (hi : IsSkip i) (e : t = s ∨ t = s.skip) : Keeps i s t := by
  rcases e with rfl | rfl
  · exact refl i _
  · exact (refl i s).setPc (.inr (.inl hi)) _

end Keeps

/-- Fx65 writes V0 to V[x] (45_index_memory.md R214). -/
theorem mem_writtenRegs_ldVxMem {x j : RegIx} (h : j.toNat < x.toNat + 1) : j ∈ writtenRegs (.ldVxMem x) :=
  List.mem_map.2 ⟨j.toNat, List.mem_range.2 h, by simp⟩

/-- Every instruction that completes keeps what its columns do not list. -/
theorem exec_keeps (h : exec i s = .next t) : Keeps i s t := by
  have e := exec_effect h
  cases i with
  | cls => obtain rfl := e; exact (Keeps.refl _ s).setFb (.inl rfl) _
  | drw x y n =>
    obtain rfl := e
    exact ((Keeps.refl _ s).setFb (.inr ⟨x, y, n, rfl⟩) _).setV (by simp [writtenRegs]) _
  | ret =>
    obtain ⟨_, rfl⟩ := e
    exact { Keeps.refl _ s with sp := absurd (.inr rfl), pc := absurd (.inl (.inl rfl)) }
  | jp nnn => obtain rfl := e; exact (Keeps.refl _ s).setPc (.inl (.inr (.inl ⟨nnn, rfl⟩))) _
  | jpV0 nnn => obtain rfl := e; exact (Keeps.refl _ s).setPc (.inl (.inr (.inr (.inr ⟨nnn, rfl⟩)))) _
  | call nnn =>
    obtain ⟨_, rfl⟩ := e
    exact { Keeps.refl _ s with
      stack := absurd ⟨nnn, rfl⟩
      sp := absurd (.inl ⟨nnn, rfl⟩)
      pc := absurd (.inl (.inr (.inr (.inl ⟨nnn, rfl⟩)))) }
  | seImm | sneImm | seReg | sneReg | skp | sknp => exact Keeps.of_skip (by simp [IsSkip]) e
  | ldImm | addImm | ldReg | orReg | andReg | xorReg | rnd | ldVxDt =>
    obtain ⟨b, rfl⟩ := e
    exact (Keeps.refl _ s).setV (by simp [writtenRegs]) b
  | addReg | sub | shr | subn | shl =>
    obtain ⟨f, b, rfl⟩ := e
    exact ((Keeps.refl _ s).setV (by simp [writtenRegs]) _).setV (by simp [writtenRegs]) b
  | ldI | addIVx | ldFVx => obtain ⟨a, rfl⟩ := e; exact (Keeps.refl _ s).setI (by simp [WritesI]) a
  | ldVxK x =>
    rcases e with rfl | ⟨b, rfl⟩
    · exact (Keeps.refl _ s).setPc (.inr (.inr ⟨x, rfl⟩)) _
    · exact (Keeps.refl _ s).setV (by simp [writtenRegs]) b
  | ldDtVx x => obtain rfl := e; exact (Keeps.refl _ s).setDt ⟨x, rfl⟩ _
  | ldStVx x => obtain rfl := e; exact (Keeps.refl _ s).setSt ⟨x, rfl⟩ _
  | ldBVx | ldMemVx => obtain ⟨_, _, rfl⟩ := e; exact (Keeps.refl _ s).setMem (by simp [WritesMem]) _
  | ldVxMem x =>
    obtain rfl := e
    exact (Keeps.refl _ s).setVs fun j hj => mem_writtenRegs_ldVxMem (by simpa using hj)

/-- A skip that completes was taken or not, and did nothing else (30_encoding.md R90). -/
theorem exec_skip (h : exec i s = .next t) (hi : IsSkip i) : t = s ∨ t = s.skip := by
  rcases hi with ⟨_, _, rfl⟩ | ⟨_, _, rfl⟩ | ⟨_, _, rfl⟩ | ⟨_, _, rfl⟩ | ⟨_, rfl⟩ | ⟨_, rfl⟩ <;> exact exec_effect h

end Sys2Proof.Machine

/-! ## The statements about what an instruction writes -/

namespace Sys2Proof.Proofs

open Sys2Proof Sys2Proof.Machine Sys2Proof.Claims

/-- Settles O43: the register column of `exec_keeps`. -/
theorem registersAreWrittenAsTabled : Obligations.RegistersAreWrittenAsTabled :=
  fun _ _ _ h => (exec_keeps h).regs

/-- Settles O44: which instructions move SP is a column of `exec_keeps`, by how much is their effect. -/
theorem onlyCallAndReturnMoveSp : Obligations.OnlyCallAndReturnMoveSp := by
  intro i s t h
  refine ⟨fun hsp => ?_, not_imp_comm.1 (exec_keeps h).stack⟩
  have e := exec_effect h
  rcases not_imp_comm.1 (exec_keeps h).sp hsp with ⟨nnn, rfl⟩ | rfl
  · obtain ⟨_, rfl⟩ := e
    exact .inl ⟨⟨nnn, rfl⟩, rfl⟩
  · obtain ⟨hpos, rfl⟩ := e
    exact .inr ⟨rfl, Nat.sub_add_cancel hpos⟩

/-- Settles O45: the column of I in `exec_keeps`. -/
theorem onlyThreeInstructionsWriteI : Obligations.OnlyThreeInstructionsWriteI :=
  fun _ _ _ h => not_imp_comm.1 (exec_keeps h).iReg

/-- Settles O46: which instructions write PC is a column of `exec_keeps`; a skip or Fx0A that changed it took its branch. -/
theorem onlyControlFlowWritesPc : Obligations.OnlyControlFlowWritesPc := by
  intro i s t h hpc
  rcases not_imp_comm.1 (exec_keeps h).pc hpc with hjump | hskip | ⟨x, rfl⟩
  · exact .inl hjump
  · rcases exec_skip h hskip with rfl | rfl
    · exact absurd rfl hpc
    · exact .inr (.inl ⟨rfl, hskip⟩)
  · rcases exec_effect h with rfl | ⟨b, rfl⟩
    · exact .inr (.inr ⟨rfl, x, rfl⟩)
    · exact absurd rfl hpc

/-- Settles O48: no column of `exec_keeps` lists the snapshot, IR, the run state or `env`, and one instruction each timer. -/
theorem instructionsLeaveSnapshotIrAndRunState : Obligations.InstructionsLeaveSnapshotIrAndRunState :=
  fun _ _ _ h =>
    have k := exec_keeps h
    ⟨k.keys, k.ir, k.run, k.env, not_imp_comm.1 k.dt, not_imp_comm.1 k.st⟩

end Sys2Proof.Proofs
end

section
/-! SUPPORT. The invariant of the block, piece by piece: what an instruction does to each piece, the fetch before it and the
poll and tick after it. -/

namespace Sys2Proof.Machine

variable {i : Instr} {s t : State}

/-! ## The memories and the stack -/

/-- Main memory stays canonical: only Fx33 and Fx55 write it, inside its 4096 bytes (20_memory.md R51, R52). -/
theorem exec_memOk (h : exec i s = .next t) (hs : s.memOk) : t.memOk := by
  have k := exec_keeps h
  have e := exec_effect h
  by_cases hw : WritesMem i
  · obtain ⟨bs, hin, rfl⟩ : ∃ bs, s.i.toNat + bs.length ≤ Config.memSize ∧
        t = s.setMem (s.mem.writeList (resetByte s.env.glyphs) s.i.toNat bs) := by
      rcases hw with ⟨x, rfl⟩ | ⟨x, rfl⟩ <;> exact e
    exact Memory.wf_writeList bs hs hin
  · rw [State.memOk, k.env, k.mem hw]; exact hs

/-- The cells of a sprite are cells of the frame buffer (42_display.md R171). -/
theorem lt_fbSize_of_mem_spriteCells {px py row : Nat} {rows : List Byte} :
    ∀ c ∈ spriteCells px py row rows, c < Config.fbSize := by
  intro c hc
  obtain ⟨k, -, col, -, -, rfl⟩ := mem_spriteCells.1 hc
  exact spriteCell_lt px py (row + k) col

/-- The frame buffer stays a bitmap: 00E0 empties it, Dxyn flips cells of it, nothing else writes it (10_state.md R33). -/
theorem exec_fbOk (h : exec i s = .next t) (hs : s.fbOk) : t.fbOk := by
  have e := exec_effect h
  by_cases hw : WritesFb i
  · rcases hw with rfl | ⟨x, y, n, rfl⟩
    · obtain rfl := e
      exact ⟨rfl, rfl⟩
    · obtain rfl := e
      exact drawCells_keeps lt_fbSize_of_mem_spriteCells hs.1 hs.2
  · rw [State.fbOk, (exec_keeps h).fb hw]; exact hs

/-- The stack slots stay bounded: only 2nnn writes one, with PC (40_control_flow.md R122). -/
theorem exec_stackOk (h : exec i s = .next t) (hs : s.stackOk) (hpc : s.pc.toNat ≤ 0x1000) : t.stackOk := by
  by_cases hw : WritesStack i
  · obtain ⟨nnn, rfl⟩ := hw
    obtain ⟨hsp, rfl⟩ := exec_effect h
    intro j
    simp only [Fin.getElem_fin, Vector.getElem_set]
    split
    · exact hpc
    · exact hs j
  · rw [State.stackOk, (exec_keeps h).stack hw]; exact hs

/-! ## PC -/

theorem zextAddr_toNat_lt (nnn : Addr12) : (zextAddr nnn).toNat < 0x1000 := by
  have := nnn.isLt
  simp only [zextAddr, BitVec.toNat_setWidth]
  omega

theorem zextByte_toNat_lt (b : Byte) : (zextByte b).toNat < 0x100 := by
  have := b.isLt
  simp only [zextByte, BitVec.toNat_setWidth]
  omega

/-- The targets of the jumps: a 12-bit address, that plus V0, or a stack slot (40_control_flow.md R120, R121, R122, R127). -/
theorem exec_jump_pcOk (h : exec i s = .next t) (hi : IsJump i) (hs : s.stackOk) : t.pcOk := by
  have e := exec_effect h
  unfold State.pcOk
  rcases hi with rfl | ⟨nnn, rfl⟩ | ⟨nnn, rfl⟩ | ⟨nnn, rfl⟩
  · obtain ⟨hpos, rfl⟩ := e
    have hslot : s.stack[s.sp.val - 1].toNat ≤ 0x1000 := hs ⟨s.sp.val - 1, by omega⟩
    exact hslot.trans (by omega)
  · obtain rfl := e
    exact (zextAddr_toNat_lt nnn).le.trans (by omega)
  · obtain ⟨-, rfl⟩ := e
    exact (zextAddr_toNat_lt nnn).le.trans (by omega)
  · obtain rfl := e
    have ha := zextAddr_toNat_lt nnn
    have hb := zextByte_toNat_lt (s.getV reg0)
    rw [setPc_pc, BitVec.toNat_add]
    omega

/-- After an instruction PC is at most 0x10FE: a jump's target, or the PC the fetch left, moved by at most 2 (R90, R192). -/
theorem exec_pcOk (h : exec i s = .next t) (hs : s.stackOk) (hlo : 2 ≤ s.pc.toNat) (hhi : s.pc.toNat ≤ 0x1000) :
    t.pcOk := by
  by_cases hpc : t.pc = s.pc
  · rw [State.pcOk, hpc]; omega
  · rcases Proofs.onlyControlFlowWritesPc i s t h hpc with hjump | ⟨e, -⟩ | ⟨e, -⟩
    · exact exec_jump_pcOk h hjump hs
    · rw [State.pcOk, e, BitVec.toNat_add]; simp only [BitVec.toNat_ofNat]; omega
    · rw [State.pcOk, e, BitVec.toNat_sub]; simp only [BitVec.toNat_ofNat]; omega

/-! ## The cycle -/

/-- A fetch that succeeds loads IR and leaves PC at 2 to 0x1000 (30_encoding.md R83). -/
theorem fetch_ok {f : State} (h : s.fetch = .ok f) :
    f = { s with ir := f.ir, pc := f.pc } ∧ 2 ≤ f.pc.toNat ∧ f.pc.toNat ≤ 0x1000 := by
  rcases fetch_cases s with ⟨-, e⟩ | ⟨-, e⟩ | ⟨hlt, e⟩ <;> rw [e] at h <;> cases h
  have hin : s.pc.toNat + 1 < 0x1000 := hlt
  have hpc : (s.pc + 2#16).toNat = s.pc.toNat + 2 := BitVec.toNat_add_of_lt (show s.pc.toNat + 2 < 2 ^ 16 by omega)
  exact ⟨rfl, by rw [hpc]; omega, by rw [hpc]; omega⟩

/-- A completed step keeps the frame buffer a bitmap (10_state.md R33). -/
theorem step_fbOk (h : step s = .next t) (hs : s.fbOk) : t.fbOk := by
  obtain ⟨-, f, i, u, hf, -, hu, rfl⟩ := step_next h
  have hfb : f.fbOk := by rw [(fetch_ok hf).1]; exact hs
  exact (exec_fbOk hu hfb : u.fbOk)

/-- A completed step keeps the invariant of the block. -/
theorem step_inv (h : step s = .next t) (hs : s.Inv) : t.Inv := by
  obtain ⟨hmem, hfb, hstack, -⟩ := hs
  obtain ⟨-, f, i, u, hf, -, hu, rfl⟩ := step_next h
  obtain ⟨ef, hlo, hhi⟩ := fetch_ok hf
  have hmem' : f.memOk := by rw [ef]; exact hmem
  have hfb' : f.fbOk := by rw [ef]; exact hfb
  have hstack' : f.stackOk := by rw [ef]; exact hstack
  have hinv : u.Inv :=
    ⟨exec_memOk hu hmem', exec_fbOk hu hfb', exec_stackOk hu hstack' hhi, exec_pcOk hu hstack' hlo hhi⟩
  exact hinv

end Sys2Proof.Machine

namespace Sys2Proof.Proofs

open Sys2Proof Sys2Proof.Machine

/-- Settles O50: the fetch bounds PC, and each instruction keeps each piece of the invariant. -/
theorem stepKeepsTheInvariant : Obligations.StepKeepsTheInvariant :=
  fun _ _ hs h => step_inv h hs

/-- Settles O52: the canonical frame buffer is a bitmap, and a step keeps it canonical. -/
theorem frameBufferCellsAreOffOrOn : Obligations.FrameBufferCellsAreOffOrOn := by
  have cells : ∀ s : State, s.fbOk → ∀ c, s.cell c = 0x00#8 ∨ s.cell c = 0xFF#8 := fun _ hs => cell_of_allOn hs.2
  intro s t hs
  exact ⟨cells s hs, fun h => ⟨step_fbOk h hs, cells t (step_fbOk h hs)⟩⟩

end Sys2Proof.Proofs
end

section
/-! SUPPORT. The inputs of the coming cycles are not seen (10_state.md R28; log 1): every operation of an instruction but the
random byte of Cxkk commutes with replacing them. -/

namespace Sys2Proof.Machine

open Sys2Proof.Claims

variable (s : State) (inputs : List CycleInput)

/-! ## The reads -/

@[simp] theorem withInputs_i : (withInputs s inputs).i = s.i := rfl
@[simp] theorem withInputs_pc : (withInputs s inputs).pc = s.pc := rfl
@[simp] theorem withInputs_sp : (withInputs s inputs).sp = s.sp := rfl
@[simp] theorem withInputs_keys : (withInputs s inputs).keys = s.keys := rfl
@[simp] theorem withInputs_cycles : (withInputs s inputs).env.cycles = s.env.cycles := rfl
@[simp] theorem withInputs_getV (x : RegIx) : (withInputs s inputs).getV x = s.getV x := rfl
@[simp] theorem withInputs_memRead (a : Nat) : (withInputs s inputs).memRead a = s.memRead a := rfl

/-! ## The shared operations -/

theorem skipIf_withInputs (c : Bool) :
    skipIf c (withInputs s inputs) = mapNext (withInputs · inputs) (skipIf c s) := by
  cases c <;> rfl

theorem push_withInputs (a : Word) : (withInputs s inputs).push a = (s.push a).map (withInputs · inputs) := by
  rcases push_cases s a with ⟨hsp, e⟩ | ⟨hsp, e⟩ <;> rw [e]
  · exact dif_neg (by simp [hsp])
  · exact dif_pos hsp

theorem pop_withInputs :
    (withInputs s inputs).pop = s.pop.map fun p => (withInputs p.1 inputs, p.2) := by
  rcases pop_cases s with ⟨hsp, e⟩ | ⟨hsp, e⟩ <;> rw [e]
  · exact dif_neg (by simp [hsp])
  · exact dif_pos hsp

theorem readBytes_withInputs (a n : Nat) : (withInputs s inputs).readBytes a n = s.readBytes a n := by
  induction n generalizing a with
  | zero => rfl
  | succ n ih => simp only [State.readBytes, withInputs_memRead, ih]

theorem memWrite_withInputs (a : Nat) (x : Byte) :
    (withInputs s inputs).memWrite a x = (s.memWrite a x).map (withInputs · inputs) := by
  unfold State.memWrite
  split <;> rfl

theorem writeBytes_withInputs (a : Nat) (bytes : List Byte) :
    (withInputs s inputs).writeBytes a bytes = (s.writeBytes a bytes).map (withInputs · inputs) := by
  induction bytes generalizing s a with
  | nil => rfl
  | cons x xs ih =>
    rw [State.writeBytes, State.writeBytes, memWrite_withInputs]
    cases s.memWrite a x with
    | error bad => rfl
    | ok t => exact ih t (a + 1)

theorem setVs_withInputs (k : Nat) (bytes : List Byte) :
    (withInputs s inputs).setVs k bytes = withInputs (s.setVs k bytes) inputs := by
  induction bytes generalizing s k with
  | nil => rfl
  | cons b bs ih => exact ih { s with v := s.v.setIfInBounds k b } (k + 1)

/-! ## The meanings that branch -/

theorem execRet_withInputs : execRet (withInputs s inputs) = mapNext (withInputs · inputs) (execRet s) := by
  rw [execRet, execRet, pop_withInputs]
  cases s.pop <;> rfl

theorem execCall_withInputs (nnn : Addr12) :
    execCall nnn (withInputs s inputs) = mapNext (withInputs · inputs) (execCall nnn s) := by
  rw [execCall, execCall, withInputs_pc, push_withInputs]
  cases s.push s.pc <;> rfl

theorem execDrw_withInputs (x y : RegIx) (n : Nat) :
    execDrw x y n (withInputs s inputs) = mapNext (withInputs · inputs) (execDrw x y n s) := by
  rw [execDrw, execDrw, readBytes_withInputs, withInputs_i]
  cases s.readBytes s.i.toNat n <;> rfl

theorem storeAtI_withInputs (bytes : List Byte) :
    storeAtI bytes (withInputs s inputs) = mapNext (withInputs · inputs) (storeAtI bytes s) := by
  rw [storeAtI, storeAtI, writeBytes_withInputs, withInputs_i]
  cases s.writeBytes s.i.toNat bytes <;> rfl

theorem execLdVxMem_withInputs (x : RegIx) :
    execLdVxMem x (withInputs s inputs) = mapNext (withInputs · inputs) (execLdVxMem x s) := by
  rw [execLdVxMem, execLdVxMem, readBytes_withInputs, withInputs_i]
  cases s.readBytes s.i.toNat (x.toNat + 1) with
  | error bad => rfl
  | ok bytes => exact congrArg Host.Outcome.next (setVs_withInputs s inputs 0 bytes)

theorem skipIfKey_withInputs (want : Bool) (x : RegIx) :
    skipIfKey want x (withInputs s inputs) = mapNext (withInputs · inputs) (skipIfKey want x s) := by
  unfold skipIfKey
  rw [withInputs_getV]
  split
  · rfl
  · exact skipIf_withInputs s inputs _

theorem execLdVxK_withInputs (x : RegIx) :
    execLdVxK x (withInputs s inputs) = mapNext (withInputs · inputs) (execLdVxK x s) := by
  rw [execLdVxK, execLdVxK, withInputs_keys, withInputs_cycles]
  cases chooseKey s.keys (Config.keyDraw s.env.cycles) <;> rfl

end Sys2Proof.Machine

namespace Sys2Proof.Proofs

open Sys2Proof Sys2Proof.Machine Sys2Proof.Claims

/-- Settles O49: an instruction that branches commutes with the inputs by its lemma, any other is one update that does. -/
theorem onlyRandomDependsOnTheInputs : Obligations.OnlyRandomDependsOnTheInputs := by
  intro i s inputs hi
  cases i with
  | rnd x kk => exact absurd rfl (hi x kk)
  | ret => exact execRet_withInputs s inputs
  | call nnn => exact execCall_withInputs s inputs nnn
  | seImm | sneImm | seReg | sneReg => exact skipIf_withInputs s inputs _
  | skp x => exact skipIfKey_withInputs s inputs true x
  | sknp x => exact skipIfKey_withInputs s inputs false x
  | drw x y n => exact execDrw_withInputs s inputs x y n
  | ldVxK x => exact execLdVxK_withInputs s inputs x
  | ldBVx | ldMemVx => exact storeAtI_withInputs s inputs _
  | ldVxMem x => exact execLdVxMem_withInputs s inputs x
  | cls | jp | jpV0 | ldImm | addImm | ldReg | orReg | andReg | xorReg | addReg | sub | shr | subn | shl | ldI | ldVxDt
  | ldDtVx | ldStVx | addIVx | ldFVx => rfl

end Sys2Proof.Proofs
end

section
/-! SUPPORT. Stores and loads of main memory: what a bulk write leaves at each address, what the next fetch reads of it, and
what `load` does (20_memory.md R51, R64, R69). -/

namespace Sys2Proof.Machine

variable {s t : State} {bytes image : List Byte}

/-! ## A bulk write, byte by byte -/

theorem memByte_writeList_inside (hs : s.memOk) {a k : Nat} (ha : a + bytes.length ≤ Config.memSize)
    (hk : k < bytes.length) :
    (s.setMem (s.mem.writeList (resetByte s.env.glyphs) a bytes)).memByte (a + k) = bytes[k] :=
  Memory.read_writeList_inside bytes hs ha hk

theorem memByte_writeList_outside {a b : Nat} (h : b < a ∨ a + bytes.length ≤ b) :
    (s.setMem (s.mem.writeList (resetByte s.env.glyphs) a bytes)).memByte b = s.memByte b :=
  Memory.read_writeList_outside bytes s.mem h

/-! ## Fx55 and the fetch after it -/

/-- A store at I that completes was in range and wrote main memory only (20_memory.md R52). -/
theorem storeAtI_next (hb : bytes ≠ []) (h : storeAtI bytes s = .next t) :
    s.i.toNat + bytes.length ≤ Config.memSize ∧
      t = s.setMem (s.mem.writeList (resetByte s.env.glyphs) s.i.toNat bytes) := by
  rcases storeAtI_cases bytes hb s with ⟨hin, e⟩ | ⟨-, e⟩ <;> rw [e] at h <;> cases h
  exact ⟨hin, rfl⟩

theorem regBlock_ne_nil (s : State) (x : RegIx) : s.regBlock x ≠ [] :=
  List.ne_nil_of_length_eq_add_one (regBlock_length s x)

/-- Fx55 that completes stored V0 to V[x] in range, from I on (45_index_memory.md R213). -/
theorem exec_ldMemVx_next {x : RegIx} (hs : s.memOk) (h : exec (.ldMemVx x) s = .next t) :
    s.i.toNat + (x.toNat + 1) ≤ Config.memSize ∧
      ∀ j : RegIx, j.toNat ≤ x.toNat → t.memByte (s.i.toNat + j.toNat) = s.getV j := by
  obtain ⟨hin, rfl⟩ := storeAtI_next (regBlock_ne_nil s x) h
  refine ⟨regBlock_length s x ▸ hin, fun j hj => ?_⟩
  have hlt : j.toNat < (s.regBlock x).length := by rw [regBlock_length]; omega
  rw [memByte_writeList_inside hs hin hlt, regBlock_getElem]

/-- With both bytes in range the fetch succeeds (30_encoding.md R83). -/
theorem fetch_inRange (h : s.pc.toNat + 1 < Config.memSize) :
    s.fetch = .ok { s with
      ir := composeWord (s.memByte s.pc.toNat) (s.memByte (s.pc.toNat + 1)), pc := s.pc + 2#16 } := by
  rcases fetch_cases s with ⟨hout, -⟩ | ⟨hout, -⟩ | ⟨-, e⟩
  · omega
  · omega
  · exact e

/-! ## Load -/

/-- An image that fits is one bulk write from 0x200 (20_memory.md R64). -/
theorem load_fits (h : image.length ≤ Config.progMax) :
    s.load image = s.setMem (s.mem.writeList (resetByte s.env.glyphs) Config.progOrigin image) :=
  if_pos (decide_eq_true h)

/-- An image too large faults a running machine (20_memory.md R64, D27). -/
theorem load_tooLarge (h : Config.progMax < image.length) (hr : s.run = .running) :
    s.load image = { s with run := .faulted (.loadFault image.length) } := by
  have hno : ¬ imageFits image = true := by simpa [imageFits] using h
  rw [State.load, if_neg hno, hr]

/-- A Faulted machine answers its record (60_exceptions.md R233). -/
theorem step_faulted {r : Fault} (h : s.run = .faulted r) : step s = .fault r := by
  rw [step, h]

/-! ## Instructions that write neither memory -/

/-- The bytes of main memory are those of the list and the font, and only Fx33 and Fx55 write the list (20_memory.md R51). -/
theorem Keeps.memByte {i : Instr} (k : Keeps i s t) (hw : ¬ WritesMem i) (a : Nat) : t.memByte a = s.memByte a := by
  rw [State.memByte, State.memByte, k.mem hw, k.env]

/-- Only 00E0 and Dxyn write the cells of the frame buffer (10_state.md R32). -/
theorem Keeps.cell {i : Instr} (k : Keeps i s t) (hw : ¬ WritesFb i) (c : Nat) : t.cell c = s.cell c := by
  rw [State.cell, State.cell, k.fb hw]

end Sys2Proof.Machine

namespace Sys2Proof.Proofs

open Sys2Proof Sys2Proof.Machine

/-- Settles O41: Fx55 keeps PC, so the next fetch reads the two bytes it stored there. -/
theorem storeIsSeenByTheNextFetch : Obligations.StoreIsSeenByTheNextFetch := by
  intro x j k s t hs h hjk hkx hpc
  obtain ⟨hin, hstored⟩ := exec_ldMemVx_next hs h
  have htpc : t.pc = s.pc := (exec_keeps h).pc (by simp [WritesPc, IsJump, IsSkip])
  have hhi : t.memByte t.pc.toNat = s.getV j := by
    rw [htpc, hpc]; exact hstored j (by omega)
  have hlo : t.memByte (t.pc.toNat + 1) = s.getV k := by
    rw [htpc, hpc, Nat.add_assoc, hjk]; exact hstored k hkx
  have hrange : t.endCycle.pc.toNat + 1 < Config.memSize := by rw [endCycle_pc, htpc]; omega
  refine ⟨_, fetch_inRange hrange, ?_⟩
  rw [← hhi, ← hlo]
  rfl

/-- Settles O47: the columns of the two memories in `exec_keeps`, read cell by cell. -/
theorem onlyStoresWriteMemoryAndOnlyDrawsTheFrameBuffer :
    Obligations.OnlyStoresWriteMemoryAndOnlyDrawsTheFrameBuffer := by
  intro i s t h
  have k := exec_keeps h
  exact ⟨fun ⟨a, ha⟩ => not_imp_comm.1 (k.memByte · a) ha, fun ⟨c, hc⟩ => not_imp_comm.1 (k.cell · c) hc⟩

/-- Settles O54: an image that fits is a bulk write inside main memory, one too large sets the run state only. -/
theorem loadCopiesTheImageOrFaults : Obligations.LoadCopiesTheImageOrFaults := by
  intro s image hs
  refine ⟨fun hfits => ?_, fun hlarge hr => ?_⟩
  · have hin : Config.progOrigin + image.length ≤ Config.memSize := Nat.add_le_add_left hfits 0x200
    rw [load_fits hfits]
    exact ⟨fun k hk => memByte_writeList_inside hs hin hk, fun a ha => memByte_writeList_outside ha, rfl⟩
  · have hload := load_tooLarge hlarge hr
    exact ⟨hload, step_faulted (by rw [hload])⟩

end Sys2Proof.Proofs
end

section
/-! SUPPORT. The decoder and the encoder undo each other (30_encoding.md R80, R91, R93): each family's decoder is inverted
once, and a word is put together again from the fields its pattern names. -/

namespace Sys2Proof

variable {w : Word} {i : Instr} {f : BitVec 4}

/-! ## A word from the fields its pattern fixes -/

theorem wordNnn_of_family (hf : (fieldFamily w).toNat = f.toNat) : wordNnn f (fieldNnn w) = w :=
  BitVec.eq_of_toNat_eq hf ▸ wordNnn_fields w

theorem wordXkk_of_family (hf : (fieldFamily w).toNat = f.toNat) : wordXkk f (fieldX w) (fieldKk w) = w :=
  BitVec.eq_of_toNat_eq hf ▸ wordXkk_fields w

theorem wordXyn_of_family (hf : (fieldFamily w).toNat = f.toNat) : wordXyn f (fieldX w) (fieldY w) (fieldN w) = w :=
  BitVec.eq_of_toNat_eq hf ▸ wordXyn_fields w

/-- The low byte is a selector (Ex.. and Fx..). -/
theorem wordXkk_of_lowByte {kk : Byte} (hf : (fieldFamily w).toNat = f.toNat) (hk : (fieldKk w).toNat = kk.toNat) :
    wordXkk f (fieldX w) kk = w :=
  BitVec.eq_of_toNat_eq hk ▸ wordXkk_of_family hf

/-- The low nibble is a selector (5xy0, 8xy. and 9xy0). -/
theorem wordXyn_of_lowNibble {n : BitVec 4} (hf : (fieldFamily w).toNat = f.toNat) (hn : (fieldN w).toNat = n.toNat) :
    wordXyn f (fieldX w) (fieldY w) n = w :=
  BitVec.eq_of_toNat_eq hn ▸ wordXyn_of_family hf

/-! ## The encoding of what a family's decoder answers -/

/-- The word is the encoding of the instruction, which is well formed. -/
def Encodes (i : Instr) (w : Word) : Prop := i.wellFormed = true ∧ encode i = w

theorem encodes_of_decodeFamily0 (h : decodeFamily0 w = some i) : Encodes i w := by
  unfold decodeFamily0 at h
  split at h
  · cases h; exact ⟨rfl, Eq.symm ‹_›⟩
  · split at h
    · cases h; exact ⟨rfl, Eq.symm ‹_›⟩
    · cases h

theorem encodes_of_decodeFamily8 (hf : (fieldFamily w).toNat = 0x8) (h : decodeFamily8 w = some i) : Encodes i w := by
  unfold decodeFamily8 at h
  split at h <;> cases h <;> exact ⟨rfl, wordXyn_of_lowNibble hf ‹_›⟩

theorem encodes_of_decodeFamilyE (hf : (fieldFamily w).toNat = 0xE) (h : decodeFamilyE w = some i) : Encodes i w := by
  unfold decodeFamilyE at h
  split at h <;> cases h <;> exact ⟨rfl, wordXkk_of_lowByte hf ‹_›⟩

theorem encodes_of_decodeFamilyF (hf : (fieldFamily w).toNat = 0xF) (h : decodeFamilyF w = some i) : Encodes i w := by
  unfold decodeFamilyF at h
  split at h <;> cases h <;> exact ⟨rfl, wordXkk_of_lowByte hf ‹_›⟩

/-- A family whose only pattern ends in 0 (5xy0 and 9xy0). -/
theorem encodes_of_zeroNibble {j : Instr} (h : (if fieldN w = 0#4 then some j else none) = some i)
    (hj : fieldN w = 0#4 → Encodes j w) : Encodes i w := by
  split at h
  · cases h; exact hj ‹_›
  · cases h

/-- Dxyn: the nibble read as a count is below 16, and written back it is the nibble (R82). -/
theorem encodes_drw (hf : (fieldFamily w).toNat = 0xD) : Encodes (.drw (fieldX w) (fieldY w) (fieldN w).toNat) w := by
  refine ⟨decide_eq_true (fieldN w).isLt, ?_⟩
  rw [encode, BitVec.ofNat_toNat, BitVec.setWidth_eq]
  exact wordXyn_of_family hf

/-- Every word that decodes is the encoding of the well-formed instruction it decodes to. -/
theorem encodes_of_decodeWord (h : decodeWord w = some i) : Encodes i w := by
  unfold decodeWord at h
  split at h <;> rename_i hf
  case h_1 => exact encodes_of_decodeFamily0 h
  case h_9 => exact encodes_of_decodeFamily8 hf h
  case h_15 => exact encodes_of_decodeFamilyE hf h
  case h_16 => exact encodes_of_decodeFamilyF hf h
  case h_6 | h_10 => exact encodes_of_zeroNibble h fun hn => ⟨rfl, wordXyn_of_lowNibble hf (congrArg _ hn)⟩
  case h_14 => cases h; exact encodes_drw hf
  case h_2 | h_3 | h_11 | h_12 => cases h; exact ⟨rfl, wordNnn_of_family hf⟩
  case h_4 | h_5 | h_7 | h_8 | h_13 => cases h; exact ⟨rfl, wordXkk_of_family hf⟩
  case h_17 => cases h

/-! ## The decoding of an encoding -/

/-- The encoding of every well-formed instruction decodes to it: the fields of a composed word are its parts. -/
theorem decodeWord_encode (hi : i.wellFormed = true) : decodeWord (encode i) = some i := by
  cases i with
  | cls | ret => decide
  | jp | call | ldI | jpV0 => simp [encode, decodeWord]
  | seImm | sneImm | ldImm | addImm | rnd => simp [encode, decodeWord]
  | seReg | sneReg => simp [encode, decodeWord]
  | ldReg | orReg | andReg | xorReg | addReg | sub | shr | subn | shl => simp [encode, decodeWord, decodeFamily8]
  | drw x y n =>
    have hn : n < 16 := of_decide_eq_true hi
    simp [encode, decodeWord, Nat.mod_eq_of_lt hn]
  | skp | sknp => simp [encode, decodeWord, decodeFamilyE]
  | ldVxDt | ldVxK | ldDtVx | ldStVx | addIVx | ldFVx | ldBVx | ldMemVx | ldVxMem =>
    simp [encode, decodeWord, decodeFamilyF]

/-- Two bytes that compose to a word that decodes: the instruction, and the bytes after them. -/
theorem decode_of_decodeWord {hi lo : Byte} (h : decodeWord (composeWord hi lo) = some i) (rest : List Byte) :
    decode (hi :: lo :: rest) = .ok (i, rest) := by
  rw [decode, h]

end Sys2Proof

namespace Sys2Proof.Proofs

open Sys2Proof

/-- Settles O2: the decoder on the word, then on its two bytes, which compose to it again. -/
theorem decodeOfEncodeIsTheInstruction : Obligations.DecodeOfEncodeIsTheInstruction := by
  intro i rest hi
  refine ⟨decodeWord_encode hi, decode_of_decodeWord ?_ rest⟩
  rw [composeWord_bytes, decodeWord_encode hi]

/-- Settles O3: the inversion of the decoder, family by family. -/
theorem encodeOfDecodeIsTheWord : Obligations.EncodeOfDecodeIsTheWord :=
  fun _ _ h => encodes_of_decodeWord h

/-- Settles O1: ten words, written out. -/
theorem wordsOfTheTableDecode : Obligations.WordsOfTheTableDecode := by
  unfold Obligations.WordsOfTheTableDecode
  decide

end Sys2Proof.Proofs
end

section
/-! SUPPORT. Which words decode (30_encoding.md R91, R92): the illegal words of each family, and that the decoder and the
opcode map of masks and values say the same. -/

namespace Sys2Proof

variable {w : Word}

/-! ## The illegal words of each family (R92) -/

theorem decodeFamily0_eq_none : decodeFamily0 w = none ↔ w ≠ 0x00E0#16 ∧ w ≠ 0x00EE#16 := by
  unfold decodeFamily0
  split
  · simp [*]
  · split <;> simp [*]

theorem decodeFamily8_eq_none :
    decodeFamily8 w = none ↔ (fieldN w).toNat ∈ [0x8, 0x9, 0xA, 0xB, 0xC, 0xD, 0xF] := by
  have hlt := (fieldN w).isLt
  unfold decodeFamily8
  split
  case h_10 => simp_all; omega
  all_goals simp [*]

theorem decodeFamilyE_eq_none : decodeFamilyE w = none ↔ (fieldKk w).toNat ∉ [0x9E, 0xA1] := by
  unfold decodeFamilyE
  split <;> simp_all

theorem decodeFamilyF_eq_none :
    decodeFamilyF w = none ↔ (fieldKk w).toNat ∉ [0x07, 0x0A, 0x15, 0x18, 0x1E, 0x29, 0x33, 0x55, 0x65] := by
  unfold decodeFamilyF
  split <;> simp_all

theorem fieldFamily_eq_iff (k : BitVec 4) : fieldFamily w = k ↔ (fieldFamily w).toNat = k.toNat :=
  BitVec.toNat_inj.symm

end Sys2Proof

namespace Sys2Proof.Proofs

open Sys2Proof

/-- Settles O5: the illegal words, family by family; every family not listed decodes whatever its low bits are. -/
theorem illegalEncodingsAreTheSixRanges : Obligations.IllegalEncodingsAreTheSixRanges := by
  intro w
  have hlt := (fieldFamily w).isLt
  simp only [fieldFamily_eq_iff, ← decodeFamily0_eq_none, ← decodeFamily8_eq_none, ← decodeFamilyE_eq_none,
    ← decodeFamilyF_eq_none]
  unfold decodeWord
  split
  case h_17 => simp_all; omega
  all_goals simp [*]

end Sys2Proof.Proofs

namespace Sys2Proof

open Proofs (illegalEncodingsAreTheSixRanges)

variable {w m : Word} {i : Instr} {r r' : OpcodeRow}

/-! ## The rows of the opcode map (R91) -/

theorem fieldFamily_and : fieldFamily (w &&& m) = fieldFamily w &&& fieldFamily m := BitVec.extractLsb'_and

theorem fieldN_and : fieldN (w &&& m) = fieldN w &&& fieldN m := BitVec.extractLsb'_and

theorem fieldKk_and : fieldKk (w &&& m) = fieldKk w &&& fieldKk m := BitVec.extractLsb'_and

/-- Every row's mask keeps the family, and the field its family dispatches on (R85). -/
theorem mask_keeps_selector : ∀ r ∈ opcodeRows,
    fieldFamily r.mask = 15#4 ∧ (fieldFamily r.value = 0x0#4 → r.mask = 0xFFFF#16) ∧
    (fieldFamily r.value ∈ [0x5#4, 0x8#4, 0x9#4] → fieldN r.mask = 15#4) ∧
    (fieldFamily r.value ∈ [0xE#4, 0xF#4] → fieldKk r.mask = 255#8) := by
  decide

theorem decodeWord_value : ∀ r ∈ opcodeRows, decodeWord r.value ≠ none := by
  decide

/-- Two rows whose values agree on the bits both masks keep are one row. -/
theorem row_eq_of_value : ∀ r ∈ opcodeRows, ∀ r' ∈ opcodeRows,
    r.value &&& r'.mask = r'.value &&& r.mask → r = r' := by
  decide

theorem row_eq_of_pattern : ∀ r ∈ opcodeRows, ∀ r' ∈ opcodeRows, r.pattern = r'.pattern → r = r' := by
  decide

/-- No word matches two rows. -/
theorem row_unique (hr : r ∈ opcodeRows) (hr' : r' ∈ opcodeRows) (h : w &&& r.mask = r.value)
    (h' : w &&& r'.mask = r'.value) : r = r' := by
  refine row_eq_of_value r hr r' hr' ?_
  rw [← h, ← h', BitVec.and_assoc, BitVec.and_assoc, BitVec.and_comm r.mask]

/-- A word some row matches decodes: it has the selecting fields of the row's value, which is no illegal word. -/
theorem decodeWord_ne_none_of_row (hr : r ∈ opcodeRows) (h : w &&& r.mask = r.value) : decodeWord w ≠ none := by
  obtain ⟨hfam, hword, hnibble, hbyte⟩ := mask_keeps_selector r hr
  have ef : fieldFamily r.value = fieldFamily w := by rw [← h, fieldFamily_and, hfam, and_ones4]
  have ew (hf : fieldFamily w = 0x0#4) : r.value = w := by
    rw [← h, hword (ef.trans hf)]; exact BitVec.and_allOnes
  have en (hf : fieldFamily w ∈ [0x5#4, 0x8#4, 0x9#4]) : fieldN r.value = fieldN w := by
    rw [← h, fieldN_and, hnibble (ef ▸ hf), and_ones4]
  have ek (hf : fieldFamily w ∈ [0xE#4, 0xF#4]) : fieldKk r.value = fieldKk w := by
    rw [← h, fieldKk_and, hbyte (ef ▸ hf), and_ones8]
  have hlegal := mt (illegalEncodingsAreTheSixRanges r.value).2 (decodeWord_value r hr)
  rw [ef] at hlegal
  refine mt (illegalEncodingsAreTheSixRanges w).1 (mt ?_ hlegal)
  rintro (⟨hf, hw⟩ | ⟨hf, hn⟩ | ⟨hf, hn⟩ | ⟨hf, hn⟩ | ⟨hf, hk⟩ | ⟨hf, hk⟩)
  · exact .inl ⟨hf, (ew hf).symm ▸ hw⟩
  · exact .inr (.inl ⟨hf, (en (by simp [hf])).symm ▸ hn⟩)
  · exact .inr (.inr (.inl ⟨hf, (en (by simp [hf])).symm ▸ hn⟩))
  · exact .inr (.inr (.inr (.inl ⟨hf, (en (by simp [hf])).symm ▸ hn⟩)))
  · exact .inr (.inr (.inr (.inr (.inl ⟨hf, (ek (by simp [hf])).symm ▸ hk⟩))))
  · exact .inr (.inr (.inr (.inr (.inr ⟨hf, (ek (by simp [hf])).symm ▸ hk⟩))))

open Laws.EncodeRow in
/-- The encoding of every instruction matches a row with the instruction's own pattern. -/
theorem exists_row (i : Instr) : Statement i :=
  match i with
  | .cls => cls | .ret => ret | .jp nnn => jp nnn | .call nnn => call nnn
  | .seImm x kk => seImm x kk | .sneImm x kk => sneImm x kk | .seReg x y => seReg x y | .sneReg x y => sneReg x y
  | .ldImm x kk => ldImm x kk | .addImm x kk => addImm x kk | .ldReg x y => ldReg x y | .orReg x y => orReg x y
  | .andReg x y => andReg x y | .xorReg x y => xorReg x y | .addReg x y => addReg x y | .sub x y => sub x y
  | .shr x y => shr x y | .subn x y => subn x y | .shl x y => shl x y
  | .ldI nnn => ldI nnn | .jpV0 nnn => jpV0 nnn | .rnd x kk => rnd x kk | .drw x y n => drw x y n
  | .skp x => skp x | .sknp x => sknp x | .ldVxDt x => ldVxDt x | .ldVxK x => ldVxK x | .ldDtVx x => ldDtVx x
  | .ldStVx x => ldStVx x | .addIVx x => addIVx x | .ldFVx x => ldFVx x | .ldBVx x => ldBVx x
  | .ldMemVx x => ldMemVx x | .ldVxMem x => ldVxMem x

/-- A word that decodes matches the row of its instruction's pattern. -/
theorem exists_row_of_decodeWord (h : decodeWord w = some i) :
    ∃ r ∈ opcodeRows, r.pattern = i.pattern ∧ w &&& r.mask = r.value := by
  obtain ⟨-, rfl⟩ := encodes_of_decodeWord h
  exact exists_row i

/-- A row matches exactly the words that decode to an instruction of its pattern. -/
theorem row_matches_iff (hr : r ∈ opcodeRows) :
    w &&& r.mask = r.value ↔ ∃ i, decodeWord w = some i ∧ i.pattern = r.pattern := by
  constructor
  · intro h
    obtain ⟨i, hi⟩ := Option.ne_none_iff_exists'.1 (decodeWord_ne_none_of_row hr h)
    obtain ⟨r', hr', hp, h'⟩ := exists_row_of_decodeWord hi
    exact ⟨i, hi, by rw [row_unique hr hr' h h', hp]⟩
  · rintro ⟨i, hi, hp⟩
    obtain ⟨r', hr', hp', h'⟩ := exists_row_of_decodeWord hi
    obtain rfl := row_eq_of_pattern r' hr' r hr (hp'.trans hp)
    exact h'

theorem legalWord_iff : legalWord w = true ↔ ∃ r ∈ opcodeRows, w &&& r.mask = r.value := by
  simp [legalWord, OpcodeRow.covers]

/-- The words of no meaning are those no row matches (R86, R93). -/
theorem decodeWord_eq_none_iff_legalWord : decodeWord w = none ↔ legalWord w = false := by
  rw [← Bool.not_eq_true, legalWord_iff]
  constructor
  · rintro hn ⟨r, hr, h⟩
    exact decodeWord_ne_none_of_row hr h hn
  · intro hno
    refine Option.eq_none_iff_forall_ne_some.2 fun i hi => hno ?_
    obtain ⟨r, hr, -, h⟩ := exists_row_of_decodeWord hi
    exact ⟨r, hr, h⟩

end Sys2Proof

namespace Sys2Proof.Proofs

open Sys2Proof

/-- Settles O4: a word that decodes matches its instruction's row, and a word that matches a row is not illegal. -/
theorem decoderIsTheOpcodeMap : Obligations.DecoderIsTheOpcodeMap :=
  ⟨rfl, fun _ _ hr => row_matches_iff hr, fun _ _ _ hr hr' h h' => row_unique hr hr' h h',
    fun _ => decodeWord_eq_none_iff_legalWord⟩

end Sys2Proof.Proofs
end

section
/-! SUPPORT. The cycle (30_encoding.md R83, R86, R88): what a step of a running machine is, by what the fetch answers and
what the fetched word decodes to. -/

namespace Sys2Proof.Machine

open Sys2Proof.Claims

variable {s f t : State} {i : Instr}

/-- The big-endian composition as a number (R83). -/
theorem composeWord_toNat (hi lo : Byte) : (composeWord hi lo).toNat = hi.toNat * 256 + lo.toNat := by
  rw [composeWord, BitVec.toNat_append, ← Nat.shiftLeft_add_eq_or_of_lt lo.isLt, Nat.shiftLeft_eq]

/-! ## A step by cases -/

theorem step_of_fetch_error {bad : Nat} (hr : s.run = .running) (h : s.fetch = .error bad) :
    step s = .fault (.memoryRange bad none s.pc) := by
  rw [step, hr, h]

theorem step_of_fetch_ok (hr : s.run = .running) (h : s.fetch = .ok f) : step s = runFetched f := by
  rw [step, hr, h]

/-- With both bytes at PC in range a step runs what the fetch loads. -/
theorem step_inRange (hr : s.run = .running) (h : s.pc.toNat + 1 < Config.memSize) :
    step s = runFetched { s with
      ir := composeWord (s.memByte s.pc.toNat) (s.memByte (s.pc.toNat + 1)), pc := s.pc + 2#16 } :=
  step_of_fetch_ok hr (fetch_inRange h)

theorem runFetched_of_decodeWord (h : decodeWord f.ir = some i) :
    runFetched f = mapNext State.endCycle (exec i f) := by
  simp only [runFetched, h]
  cases exec i f <;> rfl

theorem runFetched_of_illegal (h : decodeWord f.ir = none) :
    runFetched f = .fault (.decodeFault f.ir (f.pc - 2#16)) := by
  rw [runFetched, h]
  rfl

/-- Bytes that are one instruction compose to a word that decodes to it. -/
theorem decodeWord_of_decode {hi lo : Byte} {rest : List Byte} (h : decode [hi, lo] = .ok (i, rest)) :
    decodeWord (composeWord hi lo) = some i := by
  rw [decode] at h
  split at h
  · cases h; assumption
  · cases h

/-- What a completed cycle leaves of what no instruction writes: the poll takes the keys of the cycle's input, which is used
up, and the machine runs (R88; 60_exceptions.md R245). -/
theorem step_next_poll (h : step s = .next t) :
    t.keys = s.env.input.keys ∧ t.run = .running ∧ t.env = s.env.advance := by
  obtain ⟨hrun, f, i, u, hf, -, hu, rfl⟩ := step_next h
  obtain ⟨ef, -⟩ := fetch_ok hf
  have k := exec_keeps hu
  have henv : u.env = s.env := by rw [k.env, ef]
  refine ⟨?_, ?_, ?_⟩
  · rw [endCycle_keys, henv]
  · rw [endCycle_run, k.run, ef]; exact hrun
  · rw [endCycle_env, henv]

end Sys2Proof.Machine

namespace Sys2Proof.Proofs

open Sys2Proof Sys2Proof.Machine

/-- Settles O6: the three cases of the fetch, by where PC is. -/
theorem fetchReadsTwoBytesBigEndian : Obligations.FetchReadsTwoBytesBigEndian := by
  intro s
  have hsize : Config.memSize = 4096 := rfl
  refine ⟨fun hin => ⟨_, fetch_inRange hin, composeWord_toNat _ _, rfl, rfl⟩, fun hr hout => ?_, fun hr hout => ?_⟩
  · rcases fetch_cases s with ⟨-, e⟩ | ⟨hat, -⟩ | ⟨hin, -⟩
    · exact step_of_fetch_error hr e
    · omega
    · omega
  · rcases fetch_cases s with ⟨hpc, -⟩ | ⟨-, e⟩ | ⟨hin, -⟩
    · omega
    · exact step_of_fetch_error hr e
    · omega

/-- Settles O7: the step on the fetched state, whose IR is the word the two bytes compose to. -/
theorem stepRunsTheDecodedInstruction : Obligations.StepRunsTheDecodedInstruction :=
  fun _ _ hr hin h => (step_inRange hr hin).trans (runFetched_of_decodeWord (decodeWord_of_decode h))

/-- Settles O8: a word no row matches does not decode, and PC - 2 of the fetched state is the fetch address. -/
theorem unrecognizedOpcodeRaisesDecodeFault : Obligations.UnrecognizedOpcodeRaisesDecodeFault := by
  intro s hr hin hillegal
  have hfault := (step_inRange hr hin).trans (runFetched_of_illegal (decodeWord_eq_none_iff_legalWord.2 hillegal))
  rwa [BitVec.add_sub_cancel] at hfault

/-- Settles O10: a completed step polls the keys at the head of its inputs, which `cycle` put there, and drops them. -/
theorem completedCycleHoldsItsKeys : Obligations.CompletedCycleHoldsItsKeys := by
  intro s t keys rnd h
  obtain ⟨hkeys, hrun, henv⟩ := step_next_poll h
  exact ⟨hkeys, hrun, by rw [henv]; rfl⟩

end Sys2Proof.Proofs
end

section
/-! SUPPORT. What jumps, calls, returns and skips leave unchanged, the illegal neighbours of the register skips, and the
numbers the jump targets are (40_control_flow.md; 30_encoding.md R90, R92). -/

namespace Sys2Proof.Machine

open Sys2Proof.Claims

variable {s : State}

/-! ## Frames -/

theorem frame_refl (w : MayWrite) (s : State) : Frame w s s := by
  simp [Frame]

theorem frame_setPc (s : State) (a : Word) : Frame { pc := true } s (s.setPc a) := by
  simp [Frame]

/-- A return moves PC and SP; the slot it pops stays as it is (40_control_flow.md R120, D8). -/
theorem frame_return (s : State) (n : Fin 17) (a : Word) :
    Frame { pc := true, sp := true } s { s with sp := n, pc := a } := by
  refine ⟨fun _ _ => rfl, fun _ => rfl, nofun, nofun, ?_⟩
  simp [State.cell, State.memByte]

/-- A call moves PC and SP and writes the call stack (40_control_flow.md R122). -/
theorem frame_call (s : State) (slots : Vector Word 16) (n : Fin 17) (a : Word) :
    Frame { pc := true, sp := true, stack := true } s { s with stack := slots, sp := n, pc := a } := by
  refine ⟨fun _ _ => rfl, fun _ => rfl, nofun, nofun, nofun, ?_⟩
  simp [State.cell, State.memByte]

/-! ## Skips -/

/-- An instruction that is one conditional skip skips when the condition holds and changes nothing else (30_encoding.md
R90). -/
theorem skipsWhen_of_skipIf {i : Instr} {c : Prop} {b : Bool} (hb : b = true ↔ c) (h : exec i s = skipIf b s) :
    SkipsWhen c i s := by
  cases b with
  | true => exact ⟨s.skip, h, fun _ => rfl, absurd (hb.1 rfl), frame_setPc s _⟩
  | false => exact ⟨s, h, fun hc => absurd (hb.2 hc) Bool.false_ne_true, fun _ => rfl, frame_refl _ s⟩

/-! ## The illegal neighbours of 5xy0 and 9xy0 -/

/-- 5xyn and 9xyn with `n` not 0 are two of the illegal ranges (30_encoding.md R92, D6). -/
theorem decodeWord_wordXyn_eq_none {f n : BitVec 4} {x y : RegIx} (hf : f = 0x5#4 ∨ f = 0x9#4) (hn : n ≠ 0x0#4) :
    decodeWord (wordXyn f x y n) = none := by
  refine (Proofs.illegalEncodingsAreTheSixRanges _).2 ?_
  rcases hf with rfl | rfl <;> simp [hn]

/-! ## Jump targets (30_encoding.md R82) -/

@[simp] theorem zextAddr_toNat (nnn : Addr12) : (zextAddr nnn).toNat = nnn.toNat :=
  BitVec.toNat_setWidth_of_le (by decide)

@[simp] theorem zextByte_toNat (b : Byte) : (zextByte b).toNat = b.toNat :=
  BitVec.toNat_setWidth_of_le (by decide)

/-- The sum of Bnnn does not wrap: it is at most 0x10FE (40_control_flow.md R127, D10). -/
theorem zextByte_add_zextAddr_toNat (b : Byte) (nnn : Addr12) :
    (zextByte b + zextAddr nnn).toNat = b.toNat + nnn.toNat := by
  have hb := b.isLt
  have hnnn := nnn.isLt
  rw [BitVec.toNat_add_of_lt] <;> simp only [zextByte_toNat, zextAddr_toNat]
  omega

end Sys2Proof.Machine

/-! ## The statements about control flow -/

namespace Sys2Proof.Proofs

open Sys2Proof Sys2Proof.Machine Sys2Proof.Claims

/-- Settles O13: the two outcomes of a pop, by whether SP is 0. -/
theorem returnPopsTheCallStack : Obligations.ReturnPopsTheCallStack := by
  refine ⟨decodeWord_encode (i := .ret) rfl, fun s => ?_⟩
  rcases execRet_cases s with ⟨hempty, e⟩ | ⟨hpos, e⟩
  · exact ⟨fun _ => e, fun hpos => absurd hempty hpos.ne'⟩
  · refine ⟨fun hempty => absurd hempty hpos.ne', fun _ => ⟨_, e, rfl, rfl, fun hs => ?_, frame_return s _ _⟩⟩
    have hslot : s.stack[s.sp.val - 1].toNat ≤ 0x1000 := hs ⟨s.sp.val - 1, by omega⟩
    exact hslot.trans (by decide)

/-- Settles O14: a jump is one update of PC. -/
theorem jumpSetsPc : Obligations.JumpSetsPc := fun nnn s =>
  ⟨decodeWord_encode (i := .jp nnn) rfl, _, rfl, zextAddr_toNat nnn, frame_setPc s _⟩

/-- Settles O15: the two outcomes of a push, by whether SP is 16. -/
theorem callPushesTheReturnAddress : Obligations.CallPushesTheReturnAddress := by
  intro nnn s
  refine ⟨decodeWord_encode (i := .call nnn) rfl, ?_⟩
  rcases execCall_cases nnn s with ⟨hfull, e⟩ | ⟨hroom, e⟩
  · exact ⟨fun _ => e, fun hroom => absurd hfull hroom.ne⟩
  · exact ⟨fun hfull => absurd hfull hroom.ne, fun _ =>
      ⟨_, e, rfl, Vector.getElem_set_self hroom, fun j hj => Vector.getElem_set_ne hroom j.isLt hj.symm,
        zextAddr_toNat nnn, frame_call s _ _ _⟩⟩

/-- Settles O16: both are one conditional skip. -/
theorem skipOnImmediate : Obligations.SkipOnImmediate := fun x kk _ =>
  ⟨decodeWord_encode (i := .seImm x kk) rfl, skipsWhen_of_skipIf beq_iff_eq rfl,
    decodeWord_encode (i := .sneImm x kk) rfl, skipsWhen_of_skipIf bne_iff_ne rfl⟩

/-- Settles O17: both are one conditional skip; the words with another low nibble are two of the illegal ranges. -/
theorem skipOnRegisters : Obligations.SkipOnRegisters := fun x y _ =>
  ⟨decodeWord_encode (i := .seReg x y) rfl, skipsWhen_of_skipIf beq_iff_eq rfl,
    decodeWord_encode (i := .sneReg x y) rfl, skipsWhen_of_skipIf bne_iff_ne rfl,
    fun _ hn => ⟨decodeWord_wordXyn_eq_none (.inl rfl) hn, decodeWord_wordXyn_eq_none (.inr rfl) hn⟩⟩

/-- Settles O18: a jump is one update of PC, and its sum does not wrap. -/
theorem jumpWithOffsetAddsV0 : Obligations.JumpWithOffsetAddsV0 := fun nnn s =>
  ⟨decodeWord_encode (i := .jpV0 nnn) rfl, _, rfl, zextByte_add_zextAddr_toNat _ nnn, frame_setPc s _⟩

/-- Settles O19: SP is above 0 after the call, and the slot the return pops is the one the call wrote. -/
theorem callThenReturnRestoresPcAndSp : Obligations.CallThenReturnRestoresPcAndSp := by
  intro nnn s t r hcall hsp hstack
  obtain ⟨hroom, rfl⟩ := exec_effect hcall
  have hval : r.sp.val = s.sp.val + 1 := congrArg Fin.val hsp
  rcases execRet_cases r with ⟨hempty, -⟩ | ⟨_, e⟩
  · omega
  · refine ⟨_, e, ?_, Fin.ext ?_⟩
    · simp [hstack, hval]
    · simp [hval]

end Sys2Proof.Proofs
end

section
/-! SUPPORT. What a register write does, with and without a flag, and the flags and results of the arithmetic as numbers
(41_alu.md R140, R141; 10_state.md R21). -/

namespace Sys2Proof.Machine

open Sys2Proof.Claims

/-! ## A register write -/

theorem frame_setV (s : State) (x : RegIx) (b : Byte) : Frame { regs := [x] } s (s.setV x b) := by
  refine ⟨fun j hj => getV_setV_other s b (List.ne_of_not_mem_cons hj), ?_⟩
  simp

/-! ## A register write with a flag: VF first, V[x] second (R141) -/

section
variable (s : State) (flag : Bool) {x : RegIx} (b : Byte)

/-- The second write stays, so V[x] is the result for x = F too. -/
@[simp] theorem getV_setFlagAndV_same : (s.setFlagAndV flag x b).getV x = b :=
  getV_setV_same _ x b

theorem getV_setFlagAndV_regF (hx : x ≠ regF) : (s.setFlagAndV flag x b).getV regF = flagByte flag :=
  (getV_setV_other _ b hx.symm).trans (getV_setV_same s regF _)

theorem frame_setFlagAndV : Frame { regs := [x, regF] } s (s.setFlagAndV flag x b) := by
  refine ⟨fun j hj => ?_, ?_⟩
  · obtain ⟨hx, hF⟩ : j ≠ x ∧ j ≠ regF := by simpa using hj
    exact (getV_setV_other _ b hx).trans (getV_setV_other s _ hF)
  · simp [State.setFlagAndV]

end

/-! ## Flags and results as numbers (R140) -/

theorem flagByte_decide (p : Prop) [Decidable p] : flagByte (decide p) = if p then 1#8 else 0#8 := by
  by_cases h : p <;> simp [flagByte, h]

@[simp] theorem flagByte_toNat (c : Bool) : (flagByte c).toNat = c.toNat := by
  cases c <;> rfl

/-- The bit shifted out to the right is the parity (R150). -/
@[simp] theorem shiftedOutRight_toNat (a : Byte) : (shiftedOutRight a).toNat = a.toNat % 2 := by
  rw [shiftedOutRight, ← BitVec.testBit_toNat, Nat.toNat_testBit, pow_zero, Nat.div_one]

/-- The bit shifted out to the left is the upper half of the range (R152). -/
@[simp] theorem shiftedOutLeft_toNat (a : Byte) : (shiftedOutLeft a).toNat = a.toNat / 128 := by
  have hbit : a.toNat / 128 < 2 := Nat.div_lt_of_lt_mul a.isLt
  rw [shiftedOutLeft, ← BitVec.testBit_toNat, Nat.toNat_testBit, Nat.mod_eq_of_lt hbit]

/-- A difference of bytes is the exact difference modulo 256, never negative (R149, R151). -/
theorem toNat_sub_eq_emod (a b : Byte) : ((a - b).toNat : Int) = ((a.toNat : Int) - b.toNat) % 256 := by
  have hb := b.isLt
  rw [BitVec.toNat_sub]
  omega

end Sys2Proof.Machine

/-! ## The statements about arithmetic and logic -/

namespace Sys2Proof.Proofs

open Sys2Proof Sys2Proof.Machine

/-- Settles O20: one register write. -/
theorem loadImmediateSetsRegister : Obligations.LoadImmediateSetsRegister := fun x kk s =>
  ⟨decodeWord_encode (i := .ldImm x kk) rfl, _, rfl, getV_setV_same s x kk, frame_setV s x kk⟩

/-- Settles O21: one register write, of a sum that wraps. -/
theorem addImmediateWrapsWithoutFlag : Obligations.AddImmediateWrapsWithoutFlag := by
  intro x kk s
  refine ⟨decodeWord_encode (i := .addImm x kk) rfl, _, rfl, ?_, frame_setV s x _⟩
  rw [getV_setV_same, BitVec.toNat_add]

/-- Settles O22: one register write. -/
theorem copyRegister : Obligations.CopyRegister := fun x y s =>
  ⟨decodeWord_encode (i := .ldReg x y) rfl, _, rfl, getV_setV_same s x _, frame_setV s x _⟩

/-- Settles O23: three register writes, of words the library describes bit by bit. -/
theorem logicWithoutFlag : Obligations.LogicWithoutFlag := by
  intro x y s
  refine ⟨decodeWord_encode (i := .orReg x y) rfl, decodeWord_encode (i := .andReg x y) rfl,
    decodeWord_encode (i := .xorReg x y) rfl, ⟨_, rfl, frame_setV s x _, fun k _ => ?_⟩,
    ⟨_, rfl, frame_setV s x _, fun k _ => ?_⟩, ⟨_, rfl, frame_setV s x _, fun k _ => ?_⟩⟩
  · rw [getV_setV_same, BitVec.getLsbD_or]
  · rw [getV_setV_same, BitVec.getLsbD_and]
  · rw [getV_setV_same, BitVec.getLsbD_xor]

/-- Settles O24: VF takes the carry of the sum, then V[x] the sum that wraps. -/
theorem addRegistersWithCarry : Obligations.AddRegistersWithCarry := by
  intro x y s
  refine ⟨decodeWord_encode (i := .addReg x y) rfl, _, rfl, ?_, fun hx => ?_, frame_setFlagAndV s _ _⟩
  · rw [getV_setFlagAndV_same, BitVec.toNat_add]
  · exact (getV_setFlagAndV_regF s _ _ hx).trans (flagByte_decide _)

/-- Settles O25: both are one write with the strict flag, with the minuend and the subtrahend exchanged. -/
theorem subtractWithStrictFlag : Obligations.SubtractWithStrictFlag := by
  intro x y s
  refine ⟨decodeWord_encode (i := .sub x y) rfl, ⟨_, rfl, ?_, fun hx => ?_, frame_setFlagAndV s _ _⟩,
    decodeWord_encode (i := .subn x y) rfl, ⟨_, rfl, ?_, fun hx => ?_, frame_setFlagAndV s _ _⟩⟩
  · rw [getV_setFlagAndV_same, toNat_sub_eq_emod]
  · exact (getV_setFlagAndV_regF s _ _ hx).trans (flagByte_decide _)
  · rw [getV_setFlagAndV_same, toNat_sub_eq_emod]
  · exact (getV_setFlagAndV_regF s _ _ hx).trans (flagByte_decide _)

/-- Settles O26: both are one write with the bit shifted out as the flag, and neither reads V[y]. -/
theorem shiftByOneIntoVF : Obligations.ShiftByOneIntoVF := by
  intro x y s
  refine ⟨decodeWord_encode (i := .shr x y) rfl, ⟨_, rfl, ?_, fun hx => ?_, frame_setFlagAndV s _ _⟩,
    decodeWord_encode (i := .shl x y) rfl, ⟨_, rfl, ?_, fun hx => ?_, frame_setFlagAndV s _ _⟩⟩
  · rw [getV_setFlagAndV_same, BitVec.toNat_ushiftRight, Nat.shiftRight_one]
  · rw [getV_setFlagAndV_regF s _ _ hx, flagByte_toNat, shiftedOutRight_toNat]
  · rw [getV_setFlagAndV_same, BitVec.toNat_shiftLeft, Nat.shiftLeft_eq, pow_one, Nat.mul_comm]
  · rw [getV_setFlagAndV_regF s _ _ hx, flagByte_toNat, shiftedOutLeft_toNat]

/-- Settles O27: one register write; the input at the head of the list is the one `cycle` put there. -/
theorem randomByteIsMasked : Obligations.RandomByteIsMasked := fun x kk s _ _ =>
  ⟨decodeWord_encode (i := .rnd x kk) rfl, ⟨_, rfl, getV_setV_same s x _, frame_setV s x _⟩, rfl⟩

end Sys2Proof.Proofs
end

section
/-! SUPPORT. What Dxyn leaves in the frame buffer and in VF, said with the cells under the sprite, and the updates of 00E0 and
Fx29 (42_display.md R170, R171, R172). -/

namespace Sys2Proof.Machine

open Sys2Proof.Claims

variable {x y : RegIx} {n c : Nat} {s : State}

/-! ## Frames -/

theorem frame_setI (s : State) (a : Word) : Frame { i := true } s (s.setI a) := by
  simp [Frame]

theorem frame_setFb (s : State) (m : Memory) : Frame { fb := true } s (s.setFb m) := by
  simp [Frame]

theorem frame_drawn (x y : RegIx) (n : Nat) (s : State) : Frame { regs := [regF], fb := true } s (s.drawn x y n) := by
  refine ⟨fun j hj => getV_setV_other _ _ (List.ne_of_not_mem_cons hj), ?_⟩
  simp [State.drawn]

/-! ## Operands -/

/-- A glyph address does not wrap: it is at most 0x54B (R172, D12). -/
theorem glyphAddr_toNat (b : Byte) : (glyphAddr b).toNat = Config.fontBase + Config.glyphBytes * b.toNat := by
  have hb := b.isLt
  rw [glyphAddr, BitVec.toNat_ofNat, Nat.mod_eq_of_lt]
  simp only [Config.fontBase, Config.glyphBytes]
  omega

/-- The first address out of range is the base or the end of main memory, whichever is higher (60_exceptions.md R234). -/
theorem max_memSize_of_firstOutOfRange {base k : Nat} (h : FirstOutOfRange base n k) :
    max base Config.memSize = base + k := by
  obtain ⟨-, hout, hbelow⟩ := h
  rcases k with _ | k
  · exact max_eq_left hout
  · have hlast := hbelow k k.lt_succ_self
    simp only [Config.memSize]
    omega

/-! ## Drawing at I -/

/-- The cells Dxyn flips: those of the sprite at I, drawn at (V[x] mod 64, V[y] mod 32) (R171). -/
def State.flippedCells (s : State) (x y : RegIx) (n : Nat) : List Nat :=
  spriteCells ((s.getV x).toNat % Config.fbWidth) ((s.getV y).toNat % Config.fbHeight) 0 (s.spriteRows n)

@[simp] theorem spriteRows_length (s : State) (n : Nat) : (s.spriteRows n).length = n := by
  simp [State.spriteRows]

@[simp] theorem spriteRows_getElem {k : Nat} (h : k < (s.spriteRows n).length) :
    (s.spriteRows n)[k] = s.memByte (s.i.toNat + k) := by
  simp [State.spriteRows]

/-- The model's list of cells is the claims' independent account of them. -/
theorem mem_flippedCells : c ∈ s.flippedCells x y n ↔ UnderSprite x y n s c := by
  simp [State.flippedCells, mem_spriteCells, UnderSprite, spriteBit, spriteCell]

theorem drawn_cell (hs : s.fbOk) (hn : n ≤ 32) (c : Nat) :
    (s.drawn x y n).cell c = if c ∈ s.flippedCells x y n then s.cell c ^^^ 0xFF#8 else s.cell c :=
  (drawCells_spec hs.1 _ _ (by simpa using hn)).1 c

theorem drawn_getV_regF (hs : s.fbOk) (hn : n ≤ 32) :
    (s.drawn x y n).getV regF = flagByte ((s.flippedCells x y n).any fun c => s.cell c == 0xFF#8) :=
  (getV_setV_same _ regF _).trans (congrArg flagByte (drawCells_spec hs.1 _ _ (by simpa using hn)).2)

/-- The collision test of the model is the claims' collision (R171). -/
theorem any_flippedCells_on :
    ((s.flippedCells x y n).any fun c => s.cell c == 0xFF#8) = true ↔ ∃ c, UnderSprite x y n s c ∧ s.cell c = 0xFF#8 := by
  simp only [List.any_eq_true, mem_flippedCells, beq_iff_eq]

/-! ## Dxyn by the range of its rows -/

/-- With every row in range, or with no row, the sprite is drawn (R171, D26). -/
theorem exec_drw_inRange (h : s.i.toNat + n ≤ Config.memSize ∨ n = 0) :
    exec (.drw x y n) s = .next (s.drawn x y n) := by
  rcases execDrw_cases x y n s with ⟨-, e⟩ | ⟨hout, hpos, -⟩
  · exact e
  · omega

/-- With a row out of range the first such address is reported (R171, 20_memory.md R52). -/
theorem exec_drw_outOfRange {k : Nat} (h : FirstOutOfRange s.i.toNat n k) :
    RaisesRange (s.i.toNat + k) (.drw x y n) s := by
  have hmax := max_memSize_of_firstOutOfRange h
  obtain ⟨hk, hout, -⟩ := h
  rcases execDrw_cases x y n s with ⟨hin, -⟩ | ⟨-, -, e⟩
  · simp only [Config.memSize] at hin
    omega
  · rw [hmax] at e
    exact e

end Sys2Proof.Machine

/-! ## The statements about the display -/

namespace Sys2Proof.Proofs

open Sys2Proof Sys2Proof.Machine

/-- Settles O28: the frame buffer with no cell listed reads 0x00 everywhere. -/
theorem clearTurnsEveryCellOff : Obligations.ClearTurnsEveryCellOff :=
  ⟨decodeWord_encode (i := .cls) rfl, fun s => ⟨_, rfl, fun _ => rfl, frame_setFb s []⟩⟩

/-- Settles O29: drawing flips the listed cells once each, and those are the cells under the sprite. -/
theorem drawXorsTheSpriteAndFlagsCollision : Obligations.DrawXorsTheSpriteAndFlagsCollision := by
  intro x y n s hn hs
  have hrows : n ≤ 32 := by omega
  refine ⟨decodeWord_encode (i := .drw x y n) (decide_eq_true hn), fun hin => ⟨_, exec_drw_inRange hin, fun c hc => ?_,
    fun c hc => ?_, fun hit => ?_, fun miss => ?_, frame_drawn x y n s⟩, fun k hk => exec_drw_outOfRange hk⟩
  · rw [drawn_cell hs hrows, if_pos (mem_flippedCells.2 hc)]
  · rw [drawn_cell hs hrows, if_neg (mt mem_flippedCells.1 hc)]
  · exact (drawn_getV_regF hs hrows).trans (congrArg flagByte (any_flippedCells_on.2 hit))
  · exact (drawn_getV_regF hs hrows).trans
      (congrArg flagByte (Bool.eq_false_of_not_eq_true (mt any_flippedCells_on.1 miss)))

/-- Settles O30: one update of I, with an address that does not wrap. -/
theorem fontAddressOfTheWholeByte : Obligations.FontAddressOfTheWholeByte := fun x s =>
  ⟨decodeWord_encode (i := .ldFVx x) rfl, _, rfl, glyphAddr_toNat _, frame_setI s _⟩

end Sys2Proof.Proofs
end

section
/-! SUPPORT. What the choice of Fx0A can be, and the outcomes of Ex9E, ExA1 and Fx0A by the snapshot (43_keypad.md R190, R191,
R192). -/

namespace Sys2Proof.Machine

open Sys2Proof.Claims

variable {keys : BitVec 16} {first k : Nat} {rest : List Nat}

/-! ## The choice among the held keys (R192, D14) -/

theorem chooseKey_of_nil (h : heldKeys keys = []) (draw : Nat) : chooseKey keys draw = none := by
  simp [chooseKey, h]

theorem chooseKey_of_cons (h : heldKeys keys = first :: rest) (draw : Nat) :
    chooseKey keys draw = some (pick first rest draw) := by
  simp [chooseKey, h]

theorem exists_chooseKey (hk : k ∈ heldKeys keys) : ∃ draw, chooseKey keys draw = some k := by
  obtain ⟨first, rest, hl⟩ := List.exists_cons_of_ne_nil (List.ne_nil_of_mem hk)
  obtain ⟨draw, hpick⟩ := exists_pick (hl ▸ hk)
  exact ⟨draw, (chooseKey_of_cons hl draw).trans (congrArg some hpick)⟩

theorem chooseKey_eq_none {draw : Nat} : chooseKey keys draw = none ↔ heldKeys keys = [] := by
  cases hl : heldKeys keys with
  | nil => simp [chooseKey_of_nil hl]
  | cons first rest => simp [chooseKey_of_cons hl]

theorem mem_heldKeys_of_chooseKey {draw : Nat} (h : chooseKey keys draw = some k) : k ∈ heldKeys keys := by
  cases hl : heldKeys keys with
  | nil => simp [chooseKey_of_nil hl] at h
  | cons first rest =>
    obtain rfl : pick first rest draw = k := by simpa [chooseKey_of_cons hl] using h
    exact pick_mem first rest draw

/-! ## Ex9E and ExA1 by the range of V[x] (R190, R191, D13) -/

section
variable {want : Bool} {x : RegIx} {s : State}

theorem skipIfKey_above (h : (s.getV x).toNat > 0x0F) :
    skipIfKey want x s = .fault (.keyIndex (s.getV x) s.ir (s.pc - 2#16)) := by
  rcases skipIfKey_cases want x s with ⟨-, e⟩ | ⟨hle, -⟩
  · exact e
  · omega

/-- An instruction that asks for key V[x] skips when the snapshot has the state it asks for. -/
theorem skipsWhen_of_skipIfKey {i : Instr} (hi : exec i s = skipIfKey want x s) (h : (s.getV x).toNat ≤ 0x0F) :
    SkipsWhen (s.keys.getLsbD (s.getV x).toNat = want) i s := by
  rcases skipIfKey_cases want x s with ⟨hgt, -⟩ | ⟨-, e⟩
  · omega
  · exact skipsWhen_of_skipIf beq_iff_eq (hi.trans e)

end

end Sys2Proof.Machine

/-! ## The statements about the keypad -/

namespace Sys2Proof.Proofs

open Sys2Proof Sys2Proof.Machine

/-- Settles O33: the draws reach the members of the list of held keys and nothing else. -/
theorem everyHeldKeyCanBeChosen : Obligations.EveryHeldKeyCanBeChosen := fun _ =>
  ⟨fun _ hk hheld => exists_chooseKey (mem_heldKeys.2 ⟨hk, hheld⟩),
    fun _ _ h => mem_heldKeys.1 (mem_heldKeys_of_chooseKey h),
    fun _ => chooseKey_eq_none.trans heldKeys_eq_nil⟩

/-- Settles O31: both test key V[x], each for its own state of the key. -/
theorem skipOnKey : Obligations.SkipOnKey := fun x _ =>
  ⟨decodeWord_encode (i := .skp x) rfl, decodeWord_encode (i := .sknp x) rfl,
    fun habove => ⟨skipIfKey_above habove, skipIfKey_above habove⟩,
    fun hkey => ⟨skipsWhen_of_skipIfKey rfl hkey, skipsWhen_of_skipIfKey rfl hkey⟩⟩

/-- Settles O32: the two outcomes of the wait, by whether some key is held. -/
theorem waitForKey : Obligations.WaitForKey := by
  refine fun x s => ⟨decodeWord_encode (i := .ldVxK x) rfl, ?_⟩
  rcases execLdVxK_cases x s with ⟨hnone, e⟩ | ⟨hsome, k, hk, hheld, e⟩
  · exact ⟨fun _ => ⟨_, e, rfl, frame_setPc s _⟩, fun hsome => absurd hnone hsome⟩
  · exact ⟨fun hnone => absurd hnone hsome,
      fun _ => ⟨_, k, e, hk, hheld, getV_setV_same s x _, frame_setV s x _⟩⟩

end Sys2Proof.Proofs
end

section
/-! SUPPORT. What setting a timer leaves unchanged, and the tone as the tick of the same cycle leaves it (44_timers.md R201,
R202; 60_exceptions.md R241, R244). -/

namespace Sys2Proof.Machine

open Sys2Proof.Claims

variable (s : State) (b : Byte)

/-! ## Frames -/

theorem frame_setDt : Frame { dt := true } s (s.setDt b) := by
  simp [Frame]

theorem frame_setSt : Frame { st := true } s (s.setSt b) := by
  simp [Frame]

/-! ## The tone -/

theorem tone_eq_false_iff : s.tone = false ↔ s.st.toNat = 0 := by
  rw [State.tone, bne_eq_false_iff_eq, ← BitVec.toNat_inj, BitVec.toNat_zero]

/-- A sound timer of 1 or 0 is at zero after the tick, so no tone is read between cycles (R202, R244). -/
theorem tone_endCycle_eq_false_iff : s.endCycle.tone = false ↔ s.st.toNat ≤ 1 := by
  rw [tone_eq_false_iff, endCycle_st, tickTimer_toNat, Nat.sub_eq_zero_iff_le]

end Sys2Proof.Machine

/-! ## The statements about the timers -/

namespace Sys2Proof.Proofs

open Sys2Proof Sys2Proof.Machine

/-- Settles O34: one register write, of DT before the tick. -/
theorem readDelayTimer : Obligations.ReadDelayTimer := fun x s =>
  ⟨decodeWord_encode (i := .ldVxDt x) rfl, _, rfl, getV_setV_same s x s.dt, frame_setV s x s.dt⟩

/-- Settles O35: each is one write of its timer, which the tick of the same cycle then counts down. -/
theorem setTimers : Obligations.SetTimers := fun x s =>
  ⟨decodeWord_encode (i := .ldDtVx x) rfl,
    ⟨_, rfl, setDt_dt s _, tickTimer_toNat _, frame_setDt s _⟩,
    decodeWord_encode (i := .ldStVx x) rfl,
    ⟨_, rfl, setSt_st s _, tickTimer_toNat _, fun hone => (tone_endCycle_eq_false_iff _).2 (Nat.le_of_eq hone),
      frame_setSt s _⟩⟩

end Sys2Proof.Proofs
end

section
/-! SUPPORT. The transfers between registers and main memory at I, by the range of their addresses, and the two writes of I
(45_index_memory.md). -/

namespace Sys2Proof.Machine

open Sys2Proof.Claims

variable {s : State} {x : RegIx} {bytes : List Byte} {k : Nat}

/-- A block with an address out of range does not end inside main memory (60_exceptions.md R234). -/
theorem memSize_lt_of_firstOutOfRange {base n : Nat} (h : FirstOutOfRange base n k) : Config.memSize < base + n := by
  obtain ⟨hk, hout, -⟩ := h
  simp only [Config.memSize]
  omega

/-! ## Stores at I (R212, R213) -/

/-- The state after a store of `bytes` at I that is in range. -/
def State.stored (s : State) (bytes : List Byte) : State :=
  s.setMem (s.mem.writeList (resetByte s.env.glyphs) s.i.toNat bytes)

theorem storeAtI_inRange (h : s.i.toNat + bytes.length ≤ Config.memSize) : storeAtI bytes s = .next (s.stored bytes) := by
  rw [storeAtI, writeBytes_ok bytes h]
  rfl

/-- An instruction that is one store at I reports the first address out of range (20_memory.md R52). -/
theorem raisesRange_of_storeAtI {i : Instr} (hi : exec i s = storeAtI bytes s)
    (h : FirstOutOfRange s.i.toNat bytes.length k) : RaisesRange (s.i.toNat + k) i s := by
  have hout := memSize_lt_of_firstOutOfRange h
  have hne : bytes ≠ [] := List.ne_nil_of_length_pos (Nat.zero_lt_of_lt h.1)
  rcases storeAtI_cases bytes hne s with ⟨hin, -⟩ | ⟨-, e⟩
  · omega
  · rw [max_memSize_of_firstOutOfRange h] at e
    exact hi.trans e

theorem stored_memByte (hs : s.memOk) (h : s.i.toNat + bytes.length ≤ Config.memSize) (hk : k < bytes.length) :
    (s.stored bytes).memByte (s.i.toNat + k) = bytes[k] :=
  memByte_writeList_inside hs h hk

/-- A store at I writes the bytes from I on and nothing else (D4). -/
theorem frame_stored (s : State) (bytes : List Byte) :
    Frame { memFrom := s.i.toNat, memCount := bytes.length } s (s.stored bytes) := by
  have hmem (a : Nat) (ha : a < s.i.toNat ∨ s.i.toNat + bytes.length ≤ a) :
      (s.stored bytes).memByte a = s.memByte a := memByte_writeList_outside ha
  simpa [Frame, State.stored] using hmem

/-- The digits are those of the number: none of them overflows its byte (R212). -/
theorem decimalDigits_toNat (b : Byte) :
    (decimalDigits b)[0].toNat = b.toNat / 100 ∧ (decimalDigits b)[1].toNat = b.toNat / 10 % 10 ∧
      (decimalDigits b)[2].toNat = b.toNat % 10 := by
  have hb := b.isLt
  have hfits (n : Nat) (hn : n < 2 ^ 8) : (BitVec.ofNat 8 n).toNat = n :=
    (BitVec.toNat_ofNat n 8).trans (Nat.mod_eq_of_lt hn)
  exact ⟨hfits _ (by omega), hfits _ (by omega), hfits _ (by omega)⟩

/-! ## Loads from I (R214) -/

/-- The state after a load of V0 to V[x] from I that is in range. -/
def State.loaded (s : State) (x : RegIx) : State :=
  s.setVs 0 ((List.range (x.toNat + 1)).map fun k => s.memByte (s.i.toNat + k))

theorem exec_ldVxMem_inRange (h : s.i.toNat + (x.toNat + 1) ≤ Config.memSize) :
    exec (.ldVxMem x) s = .next (s.loaded x) := by
  rcases execLdVxMem_cases x s with ⟨-, e⟩ | ⟨hout, -⟩
  · exact e
  · omega

theorem exec_ldVxMem_outOfRange (h : FirstOutOfRange s.i.toNat (x.toNat + 1) k) :
    RaisesRange (s.i.toNat + k) (.ldVxMem x) s := by
  have hout := memSize_lt_of_firstOutOfRange h
  rcases execLdVxMem_cases x s with ⟨hin, -⟩ | ⟨-, e⟩
  · omega
  · rw [max_memSize_of_firstOutOfRange h] at e
    exact e

theorem loaded_getV (s : State) (x j : RegIx) :
    (s.loaded x).getV j = if j.toNat ≤ x.toNat then s.memByte (s.i.toNat + j.toNat) else s.getV j := by
  rw [State.loaded, getV_setVs]
  simp

/-- A load from I writes V0 to V[x] and nothing else (D4). -/
theorem frame_loaded (s : State) (x : RegIx) :
    Frame { regs := (List.range (x.toNat + 1)).map (BitVec.ofNat 4) } s (s.loaded x) := by
  refine ⟨fun j hj => ?_, ?_⟩
  · have habove : ¬ j.toNat ≤ x.toNat := fun h => hj (mem_writtenRegs_ldVxMem (Nat.lt_succ_of_le h))
    rw [loaded_getV, if_neg habove]
  · simp [State.loaded]

end Sys2Proof.Machine

/-! ## The statements about the address register and memory -/

namespace Sys2Proof.Proofs

open Sys2Proof Sys2Proof.Machine

/-- Settles O36: one update of I. -/
theorem loadAddressRegister : Obligations.LoadAddressRegister := fun nnn s =>
  ⟨decodeWord_encode (i := .ldI nnn) rfl, _, rfl, zextAddr_toNat nnn, frame_setI s _⟩

/-- Settles O37: one update of I, with a sum that wraps. -/
theorem addToAddressRegister : Obligations.AddToAddressRegister := by
  intro x s
  refine ⟨decodeWord_encode (i := .addIVx x) rfl, _, rfl, ?_, frame_setI s _⟩
  rw [setI_i, BitVec.toNat_add, zextByte_toNat]

/-- Settles O38: a store of the three digits, none of which overflows its byte. -/
theorem storeDecimalDigits : Obligations.StoreDecimalDigits := by
  intro x s hs
  refine ⟨decodeWord_encode (i := .ldBVx x) rfl, fun hin => ?_, fun _ hk => raisesRange_of_storeAtI rfl hk⟩
  obtain ⟨hhundreds, htens, hones⟩ := decimalDigits_toNat (s.getV x)
  have hbyte (k : Nat) (hk : k < 3) := stored_memByte (bytes := decimalDigits (s.getV x)) hs hin hk
  refine ⟨_, storeAtI_inRange hin, ?_, ?_, ?_, frame_stored s _⟩
  · exact (congrArg BitVec.toNat (hbyte 0 (by decide))).trans hhundreds
  · exact (congrArg BitVec.toNat (hbyte 1 (by decide))).trans htens
  · exact (congrArg BitVec.toNat (hbyte 2 (by decide))).trans hones

/-- Settles O39: a store of the register block, whose byte `j` is V[j]. -/
theorem storeRegisters : Obligations.StoreRegisters := by
  intro x s hs
  have hlen := regBlock_length s x
  refine ⟨decodeWord_encode (i := .ldMemVx x) rfl, fun hin => ?_,
    fun _ hk => raisesRange_of_storeAtI rfl (hlen.symm ▸ hk)⟩
  rw [← hlen] at hin ⊢
  exact ⟨_, storeAtI_inRange hin, fun j hj =>
    (stored_memByte hs hin (by omega)).trans (regBlock_getElem s x j (by omega)), frame_stored s _⟩

/-- Settles O40: a load of V0 to V[x], by whether the last address is in range. -/
theorem loadRegisters : Obligations.LoadRegisters := fun x s =>
  ⟨decodeWord_encode (i := .ldVxMem x) rfl,
    fun hin => ⟨_, exec_ldVxMem_inRange hin, fun j hj => (loaded_getV s x j).trans (if_pos hj), frame_loaded s x⟩,
    fun _ hk => exec_ldVxMem_outOfRange hk⟩

end Sys2Proof.Proofs
end

section
/-! SUPPORT. Which fault an instruction can raise (60_exceptions.md R231, R234; D19), which instruction a completed
step executed (30_encoding.md R88), the machine after a fault (R230, R233), and what the ports read (R244, R247,
R248). -/

namespace Sys2Proof.Machine

open Sys2Proof.Claims

variable {s t : State} {i : Instr}

/-! ## The faults of the execute step -/

/-- The instructions that access main memory at I (20_memory.md R52). -/
def AccessesMem (i : Instr) : Prop :=
  (∃ x y n, i = .drw x y n) ∨ (∃ x, i = .ldBVx x) ∨ (∃ x, i = .ldMemVx x) ∨ (∃ x, i = .ldVxMem x)

/-- A store at I completes or reports an address of 4096 or more. -/
theorem storeAtI_next_or_raisesRange {bytes : List Byte} (hb : bytes ≠ []) (hi : exec i s = storeAtI bytes s) :
    (∃ t, exec i s = .next t) ∨ ∃ bad, 4096 ≤ bad ∧ RaisesRange bad i s := by
  rcases storeAtI_cases bytes hb s with ⟨-, e⟩ | ⟨-, e⟩
  · exact .inl ⟨_, hi.trans e⟩
  · exact .inr ⟨_, le_max_right _ _, hi.trans e⟩

/-- An access at I completes or reports an address of 4096 or more (20_memory.md R52). -/
theorem exec_next_or_raisesRange (h : AccessesMem i) :
    (∃ t, exec i s = .next t) ∨ ∃ bad, 4096 ≤ bad ∧ RaisesRange bad i s := by
  rcases h with ⟨x, y, n, rfl⟩ | ⟨x, rfl⟩ | ⟨x, rfl⟩ | ⟨x, rfl⟩
  · rcases execDrw_cases x y n s with ⟨-, e⟩ | ⟨-, -, e⟩
    · exact .inl ⟨_, e⟩
    · exact .inr ⟨_, le_max_right _ _, e⟩
  · exact storeAtI_next_or_raisesRange (List.cons_ne_nil _ _) rfl
  · exact storeAtI_next_or_raisesRange (regBlock_ne_nil s x) rfl
  · rcases execLdVxMem_cases x s with ⟨-, e⟩ | ⟨-, e⟩
    · exact .inl ⟨_, e⟩
    · exact .inr ⟨_, le_max_right _ _, e⟩

/-- A test of key V[x] completes or reports V[x] above 0x0F (43_keypad.md R190, R191). -/
theorem skipIfKey_next_or_keyIndex (want : Bool) (x : RegIx) (s : State) :
    (∃ t, skipIfKey want x s = .next t) ∨
      ((s.getV x).toNat > 0x0F ∧ skipIfKey want x s = .fault (.keyIndex (s.getV x) s.ir (s.pc - 2#16))) := by
  rcases skipIfKey_cases want x s with habove | ⟨-, e⟩
  · exact .inr habove
  · exact .inl ⟨_, e⟩

/-! ## The instruction of a completed step -/

/-- A completed step executed the instruction of the two bytes at PC, on the state the fetch loads from them
(30_encoding.md R83, R88). -/
theorem step_next_exec (h : step s = .next t)
    (hi : decodeWord (composeWord (s.memByte s.pc.toNat) (s.memByte (s.pc.toNat + 1))) = some i) :
    ∃ u, exec i { s with
      ir := composeWord (s.memByte s.pc.toNat) (s.memByte (s.pc.toNat + 1)), pc := s.pc + 2#16 } = .next u ∧
      t = u.endCycle := by
  obtain ⟨-, f, j, u, hf, hj, hu, rfl⟩ := step_next h
  rcases fetch_cases s with ⟨-, e⟩ | ⟨-, e⟩ | ⟨-, e⟩ <;> rw [e] at hf <;> cases hf
  obtain rfl : i = j := Option.some.inj (hi.symm.trans hj)
  exact ⟨u, hu, rfl⟩

/-! ## After a fault -/

/-- A cycle of a Faulted machine changes nothing (R233). -/
theorem afterCycle_of_faulted {r : Fault} (h : s.run = .faulted r) (keys : BitVec 16) (rnd : Byte) :
    s.afterCycle keys rnd = s := by
  rw [State.afterCycle, h]

/-- A cycle that raises a fault leaves the faulted machine (R230). -/
theorem afterCycle_of_fault {r : Fault} {keys : BitVec 16} {rnd : Byte} (hr : s.run = .running)
    (h : cycle keys rnd s = .fault r) : s.afterCycle keys rnd = s.afterFault r := by
  rw [State.afterCycle, hr, h]

/-! ## The ports -/

theorem frameBufferPort_length (s : State) : s.frameBufferPort.length = Config.fbSize := by
  rw [State.frameBufferPort, List.length_map, List.length_range]

theorem diagnostics_memory_length (s : State) : s.diagnostics.memory.length = Config.memSize := by
  rw [diagnostics_memory, List.length_map, List.length_range]

theorem diagnostics_frameBuffer (s : State) : s.diagnostics.frameBuffer = s.frameBufferPort := by
  simp only [State.diagnostics]

theorem tone_eq_true_iff : s.tone = true ↔ s.st ≠ 0#8 := bne_iff_ne

end Sys2Proof.Machine

/-! ## The statements about faults, the end of a cycle and the ports -/

namespace Sys2Proof.Proofs

open Sys2Proof Sys2Proof.Machine

/-- Settles O42: the outcomes of each meaning that can fault; every other instruction completes. -/
theorem eachInstructionRaisesOnlyItsCause : Obligations.EachInstructionRaisesOnlyItsCause := by
  intro i s
  have hrange (h : AccessesMem i) := (exec_next_or_raisesRange (s := s) h).imp_right (And.intro h)
  cases i with
  | call nnn =>
    rcases execCall_cases nnn s with ⟨hfull, e⟩ | ⟨_, e⟩
    · exact .inr (.inl ⟨⟨nnn, rfl⟩, hfull, e⟩)
    · exact .inl ⟨_, e⟩
  | ret =>
    rcases execRet_cases s with ⟨hempty, e⟩ | ⟨_, e⟩
    · exact .inr (.inr (.inl ⟨rfl, hempty, e⟩))
    · exact .inl ⟨_, e⟩
  | drw | ldBVx | ldMemVx | ldVxMem =>
    exact (hrange (by simp [AccessesMem])).imp_right fun hbad => .inr (.inr (.inl hbad))
  | skp x =>
    exact (skipIfKey_next_or_keyIndex true x s).imp_right fun hkey => .inr (.inr (.inr ⟨x, .inl rfl, hkey⟩))
  | sknp x =>
    exact (skipIfKey_next_or_keyIndex false x s).imp_right fun hkey => .inr (.inr (.inr ⟨x, .inr rfl, hkey⟩))
  | ldVxK x => rcases execLdVxK_cases x s with ⟨-, e⟩ | ⟨-, k, -, -, e⟩ <;> exact .inl ⟨_, e⟩
  | cls | jp | jpV0 | seImm | sneImm | seReg | sneReg | ldImm | addImm | ldReg | orReg | andReg | xorReg | addReg | sub
  | shr | subn | shl | ldI | rnd | ldVxDt | ldDtVx | ldStVx | addIVx | ldFVx => exact .inl ⟨_, rfl⟩

/-- Settles O11: the executed instruction wrote the timer or kept it, and the tick counts down what it left. -/
theorem everyCompletedCycleTicksOnce : Obligations.EveryCompletedCycleTicksOnce := by
  intro s t i h hi
  obtain ⟨u, hu, rfl⟩ := step_next_exec h hi
  rw [endCycle_dt, endCycle_st, tickTimer_toNat, tickTimer_toNat]
  constructor
  · split
    case h_1 x => obtain rfl := exec_effect hu; rfl
    case h_2 hother => rw [(exec_keeps hu).dt fun ⟨x, hx⟩ => hother x hx]
  · split
    case h_1 x => obtain rfl := exec_effect hu; rfl
    case h_2 hother => rw [(exec_keeps hu).st fun ⟨x, hx⟩ => hother x hx]

/-- Settles O12: a Faulted machine is a fixed point of every cycle, and a cycle that faults leaves one. -/
theorem faultHaltsUntilReset : Obligations.FaultHaltsUntilReset := by
  refine ⟨fun s r hs => ⟨step_faulted hs, rfl, ?_⟩, fun s keys rnd r hr hfault => ?_⟩
  · exact List.foldl_fixed' fun input => afterCycle_of_faulted hs input.keys input.rnd
  · rw [afterCycle_of_fault hr hfault]
    exact ⟨rfl, rfl⟩

/-- Settles O9: the poll and the tick, each timer by `tickTimer`. -/
theorem endOfCyclePollsAndTicks : Obligations.EndOfCyclePollsAndTicks := fun s _ _ =>
  ⟨rfl, fun _ => tickTimer_toNat s.dt, fun hzero => if_pos hzero, fun _ => tickTimer_toNat s.st,
    fun hzero => if_pos hzero, rfl⟩

/-- Settles O56: each list is read cell by cell, and every other entry of the dump is a field of the state. -/
theorem portsReadTheState : Obligations.PortsReadTheState := fun s =>
  ⟨tone_eq_true_iff, frameBufferPort_length s, fun _ hc => frameBufferPort_get s hc, diagnostics_memory_length s,
    fun _ ha => diagnostics_memory_get s ha, diagnostics_frameBuffer s,
    rfl, rfl, rfl, rfl, rfl, rfl, rfl, rfl, rfl, rfl⟩

end Sys2Proof.Proofs
end

section
/-! SUPPORT. The block right after reset, piece by piece, and the invariant at reset and across a load
(70_reset_and_hazards.md R260, R262; 20_memory.md R64). -/

namespace Sys2Proof.Machine

variable {s : State} {image : List Byte}

/-! ## What an unlisted address reads as (R58, R60) -/

theorem resetByte_font (glyphs : Vector Byte Config.fontSize) {k : Nat} (hk : k < Config.fontSize) :
    resetByte glyphs (Config.fontBase + k) = glyphs[k] := by
  rw [resetByte, dif_pos ⟨Nat.le_add_right _ _, Nat.add_lt_add_left hk _⟩]
  simp only [Nat.add_sub_cancel_left]

theorem resetByte_outside_font (glyphs : Vector Byte Config.fontSize) {a : Nat}
    (ha : a < Config.fontBase ∨ Config.fontBase + Config.fontSize ≤ a) : resetByte glyphs a = 0x00#8 :=
  dif_neg (by omega)

/-! ## The state after reset -/

@[simp] theorem resetWith_memByte (env : Env) (a : Nat) : (State.resetWith env).memByte a = resetByte env.glyphs a := rfl

@[simp] theorem resetWith_cell (env : Env) (c : Nat) : (State.resetWith env).cell c = 0x00#8 := rfl

@[simp] theorem resetWith_getV (env : Env) (j : RegIx) : (State.resetWith env).getV j = 0x00#8 :=
  Vector.getElem_replicate j.isLt

@[simp] theorem resetWith_pc (env : Env) : (State.resetWith env).pc = 0x0200#16 := rfl

theorem resetWith_stack (env : Env) (j : Fin 16) : (State.resetWith env).stack[j] = 0x0000#16 :=
  Vector.getElem_replicate j.isLt

/-- With nothing loaded, every byte from the program origin on is 0x00 (20_memory.md R58). -/
theorem resetWith_memByte_program (env : Env) {a : Nat} (ha : Config.progOrigin ≤ a) :
    (State.resetWith env).memByte a = 0x00#8 := by
  have hfont : Config.fontBase + Config.fontSize ≤ Config.progOrigin := by decide
  rw [resetWith_memByte, resetByte_outside_font env.glyphs (.inr (hfont.trans ha))]

/-- The word a cycle would fetch: two bytes of 0x00 at 0x200 and 0x201 (30_encoding.md R83). -/
theorem resetWith_word (env : Env) :
    (State.resetWith env).memByte (State.resetWith env).pc.toNat ++
      (State.resetWith env).memByte ((State.resetWith env).pc.toNat + 1) = 0x0000#16 := by
  have hhi : Config.progOrigin ≤ (State.resetWith env).pc.toNat := le_rfl
  rw [resetWith_memByte_program env hhi, resetWith_memByte_program env (hhi.trans (Nat.le_succ _))]
  rfl

/-! ## The invariant -/

/-- Both memories are empty lists, every slot is 0 and PC is 0x200. -/
theorem resetWith_inv (env : Env) : (State.resetWith env).Inv := by
  refine ⟨Memory.wf_nil, ⟨Memory.wf_nil, rfl⟩, fun j => ?_, ?_⟩
  · rw [resetWith_stack]; decide
  · rw [State.pcOk, resetWith_pc]; decide

/-- A Faulted machine keeps everything when the image is too large (log 12). -/
theorem load_tooLarge_faulted {r : Fault} (h : Config.progMax < image.length) (hr : s.run = .faulted r) :
    s.load image = s := by
  have hno : ¬ imageFits image = true := by simpa [imageFits] using h
  rw [State.load, if_neg hno, hr]

/-- A load writes main memory inside its 4096 bytes, or the run state, or nothing. -/
theorem load_inv (hs : s.Inv) (image : List Byte) : (s.load image).Inv := by
  by_cases hfits : image.length ≤ Config.progMax
  · obtain ⟨hmem, hrest⟩ := hs
    rw [load_fits hfits]
    exact ⟨Memory.wf_writeList image hmem (Nat.add_le_add_left hfits Config.progOrigin), hrest⟩
  · have hlarge : Config.progMax < image.length := Nat.lt_of_not_le hfits
    cases hr : s.run with
    | running => rw [load_tooLarge hlarge hr]; exact hs
    | faulted r => rw [load_tooLarge_faulted hlarge hr]; exact hs

end Sys2Proof.Machine

/-! ## The statements about reset -/

namespace Sys2Proof.Proofs

open Sys2Proof Sys2Proof.Machine

/-- Settles O51: the reset state is in canonical form, and a load keeps each piece of the invariant. -/
theorem invariantHoldsAfterResetAndLoad : Obligations.InvariantHoldsAfterResetAndLoad :=
  ⟨resetWith_inv, fun _ image hs => load_inv hs image⟩

/-- Settles O53: each piece of the reset state; the bytes of main memory are those an unlisted address reads as. -/
theorem resetEstablishesEveryPiece : Obligations.ResetEstablishesEveryPiece := by
  intro s
  exact ⟨resetWith_getV s.env, rfl, rfl, rfl, resetWith_stack s.env, rfl, rfl, rfl, rfl, rfl, resetWith_cell s.env,
    fun k hk => (resetWith_memByte s.env (Config.fontBase + k)).trans (resetByte_font s.env.glyphs hk),
    fun a ha => (resetWith_memByte s.env a).trans (resetByte_outside_font s.env.glyphs ha)⟩

/-- Settles O55: the word at 0x200 is 0x0000, which no row of the opcode map matches. -/
theorem cycleWithoutLoadRaisesDecodeFault : Obligations.CycleWithoutLoadRaisesDecodeFault := by
  intro env
  have hin : (State.resetWith env).pc.toNat + 1 < 4096 := by rw [resetWith_pc]; decide
  have hfault := unrecognizedOpcodeRaisesDecodeFault (State.resetWith env) rfl hin
  rw [resetWith_word, resetWith_pc] at hfault
  exact hfault (by decide)

end Sys2Proof.Proofs
end
